-- ==== Sys2Proof/Word.lean ====
section
/-! DEFINITION. The widths the spec gives its values (00_scope.md R11, R16): all of them unsigned bit vectors. -/

namespace Sys2Proof

/-- A memory cell, a general register, a timer (10_state.md R20, R29; 20_memory.md R40). -/
abbrev Byte := BitVec 8

/-- An opcode, `PC`, `I`, a stack entry (10_state.md R24, R25, R27; 30_encoding.md R65). -/
abbrev Word := BitVec 16

/-- A register selector `x` or `y`, a key or hexadecimal digit, a sprite height (00_scope.md R16). -/
abbrev Nibble := BitVec 4

/-- The `nnn` field: a 12-bit address or constant (00_scope.md R16). -/
abbrev Imm12 := BitVec 12

end Sys2Proof
end

