-- ==== Sys2Proof/Syntax.lean ====
section
/-! DEFINITION. The instruction set: one constructor per row of the opcode map (30_encoding.md R69).
Operands have the widths of the encoding's fields (R66, R67), so every term is an instruction the hardware has. -/

namespace Sys2Proof

/-- The 34 instructions, in the order of 30_encoding.md R69. -/
inductive Instr where
  /-- `CLS` (R160) -/
  | cls
  /-- `RET` (R90) -/
  | ret
  /-- `JP nnn` (R91) -/
  | jp (nnn : Imm12)
  /-- `CALL nnn` (R92) -/
  | call (nnn : Imm12)
  /-- `SE Vx, nn` (R93) -/
  | seImm (x : Nibble) (nn : Byte)
  /-- `SNE Vx, nn` (R94) -/
  | sneImm (x : Nibble) (nn : Byte)
  /-- `SE Vx, Vy` (R95) -/
  | seReg (x y : Nibble)
  /-- `LD Vx, nn` (R110) -/
  | ldImm (x : Nibble) (nn : Byte)
  /-- `ADD Vx, nn` (R111) -/
  | addImm (x : Nibble) (nn : Byte)
  /-- `LD Vx, Vy` (R114) -/
  | ldReg (x y : Nibble)
  /-- `OR Vx, Vy` (R115) -/
  | orReg (x y : Nibble)
  /-- `AND Vx, Vy` (R116) -/
  | andReg (x y : Nibble)
  /-- `XOR Vx, Vy` (R117) -/
  | xorReg (x y : Nibble)
  /-- `ADD Vx, Vy` (R118) -/
  | addReg (x y : Nibble)
  /-- `SUB Vx, Vy` (R119) -/
  | subReg (x y : Nibble)
  /-- `SHR Vx {, Vy}` (R120) -/
  | shr (x y : Nibble)
  /-- `SUBN Vx, Vy` (R121) -/
  | subnReg (x y : Nibble)
  /-- `SHL Vx {, Vy}` (R122) -/
  | shl (x y : Nibble)
  /-- `SNE Vx, Vy` (R96) -/
  | sneReg (x y : Nibble)
  /-- `LD I, nnn` (R140) -/
  | ldI (nnn : Imm12)
  /-- `JP V0, nnn` (R97) -/
  | jpV0 (nnn : Imm12)
  /-- `RND Vx, nn` (R124) -/
  | rnd (x : Nibble) (nn : Byte)
  /-- `DRW Vx, Vy, n` (R161) -/
  | drw (x y n : Nibble)
  /-- `SKP Vx` (R162) -/
  | skp (x : Nibble)
  /-- `SKNP Vx` (R163) -/
  | sknp (x : Nibble)
  /-- `LD Vx, DT` (R164) -/
  | ldVxDt (x : Nibble)
  /-- `LD Vx, K` (R167) -/
  | ldVxK (x : Nibble)
  /-- `LD DT, Vx` (R165) -/
  | ldDtVx (x : Nibble)
  /-- `LD ST, Vx` (R166) -/
  | ldStVx (x : Nibble)
  /-- `ADD I, Vx` (R141) -/
  | addI (x : Nibble)
  /-- `LD F, Vx` (R142) -/
  | ldF (x : Nibble)
  /-- `LD B, Vx` (R143) -/
  | ldB (x : Nibble)
  /-- `LD [I], Vx` (R144) -/
  | stRegs (x : Nibble)
  /-- `LD Vx, [I]` (R145) -/
  | ldRegs (x : Nibble)
deriving DecidableEq, Repr

end Sys2Proof
end

