-- ==== Sys2Proof/Decode.lean ====
section
/-! DEFINITION. From opcodes to instructions and back (30_encoding.md R60 to R76): the field view of an opcode, the
dispatch by group and sub-selector, the opcode map as a table, and the encoder. -/

namespace Sys2Proof

/-! ## Fields -/

/-- The views of one opcode (30_encoding.md R62, 00_scope.md R16). -/
structure Fields where
  op  : Word
  g   : Nibble
  nnn : Imm12
  nn  : Byte
  n   : Nibble
  x   : Nibble
  y   : Nibble
deriving DecidableEq, Repr

/-- Every field of every opcode, whatever its group: total, no failure (30_encoding.md R62). -/
def fields (op : Word) : Fields :=
  { op := op
    g := op.extractLsb' 12 4
    nnn := op.extractLsb' 0 12
    nn := op.extractLsb' 0 8
    n := op.extractLsb' 0 4
    x := op.extractLsb' 8 4
    y := op.extractLsb' 4 4 }

/-! ## Dispatch by group (R63) -/

/-- Group 0x0 selects on the low byte only; `op[11:8]` is ignored (30_encoding.md R70). -/
def dispatchGroup0 (f : Fields) : Option Instr :=
  if f.nn = 0xE0#8 then some .cls
  else if f.nn = 0xEE#8 then some .ret
  else none

/-- Group 0x8 selects on the low nibble (30_encoding.md R71). -/
def dispatchGroup8 (f : Fields) : Option Instr :=
  if f.n = 0x0#4 then some (.ldReg f.x f.y)
  else if f.n = 0x1#4 then some (.orReg f.x f.y)
  else if f.n = 0x2#4 then some (.andReg f.x f.y)
  else if f.n = 0x3#4 then some (.xorReg f.x f.y)
  else if f.n = 0x4#4 then some (.addReg f.x f.y)
  else if f.n = 0x5#4 then some (.subReg f.x f.y)
  else if f.n = 0x6#4 then some (.shr f.x f.y)
  else if f.n = 0x7#4 then some (.subnReg f.x f.y)
  else if f.n = 0xE#4 then some (.shl f.x f.y)
  else none

/-- Group 0xE selects on the low byte (30_encoding.md R72). -/
def dispatchGroupE (f : Fields) : Option Instr :=
  if f.nn = 0x9E#8 then some (.skp f.x)
  else if f.nn = 0xA1#8 then some (.sknp f.x)
  else none

/-- Group 0xF selects on the low byte (30_encoding.md R72). -/
def dispatchGroupF (f : Fields) : Option Instr :=
  if f.nn = 0x07#8 then some (.ldVxDt f.x)
  else if f.nn = 0x0A#8 then some (.ldVxK f.x)
  else if f.nn = 0x15#8 then some (.ldDtVx f.x)
  else if f.nn = 0x18#8 then some (.ldStVx f.x)
  else if f.nn = 0x1E#8 then some (.addI f.x)
  else if f.nn = 0x29#8 then some (.ldF f.x)
  else if f.nn = 0x33#8 then some (.ldB f.x)
  else if f.nn = 0x55#8 then some (.stRegs f.x)
  else if f.nn = 0x65#8 then some (.ldRegs f.x)
  else none

/-- The behaviour an opcode selects: by the top four bits, four groups further by a sub-selector; groups 0x5 and 0x9
look at nothing below (30_encoding.md R63, R73). `none` is a dispatch miss (R64). -/
def dispatch (f : Fields) : Option Instr :=
  if f.g = 0x0#4 then dispatchGroup0 f
  else if f.g = 0x1#4 then some (.jp f.nnn)
  else if f.g = 0x2#4 then some (.call f.nnn)
  else if f.g = 0x3#4 then some (.seImm f.x f.nn)
  else if f.g = 0x4#4 then some (.sneImm f.x f.nn)
  else if f.g = 0x5#4 then some (.seReg f.x f.y)
  else if f.g = 0x6#4 then some (.ldImm f.x f.nn)
  else if f.g = 0x7#4 then some (.addImm f.x f.nn)
  else if f.g = 0x8#4 then dispatchGroup8 f
  else if f.g = 0x9#4 then some (.sneReg f.x f.y)
  else if f.g = 0xA#4 then some (.ldI f.nnn)
  else if f.g = 0xB#4 then some (.jpV0 f.nnn)
  else if f.g = 0xC#4 then some (.rnd f.x f.nn)
  else if f.g = 0xD#4 then some (.drw f.x f.y f.n)
  else if f.g = 0xE#4 then dispatchGroupE f
  else dispatchGroupF f

/-! ## The decoder -/

/-- Why bytes give no instruction. -/
inductive Reject where
  /-- No row of the opcode map selects this opcode (30_encoding.md R64, R74). The step executes it as a no-op. -/
  | dispatchMiss (op : Word)
  /-- Fewer than the two bytes of an opcode (30_encoding.md R65). A step always fetches two, so none raises it. -/
  | truncated
deriving DecidableEq, Repr

/-- What the decoder answers. -/
inductive Decoded where
  | instr (i : Instr)
  | rejected (r : Reject)
deriving DecidableEq, Repr

/-- The instruction of an opcode, or the rejection of an undefined one by name. -/
def decode (op : Word) : Decoded :=
  match dispatch (fields op) with
  | some i => .instr i
  | none => .rejected (.dispatchMiss op)

/-- Two consecutive bytes as an opcode, the first the more significant (20_memory.md R46). -/
def opcodeOf (hi lo : Byte) : Word := hi ++ lo

/-- The decoder on bytes as memory stores them: the answer and the bytes that are left. -/
def decodeBytes : List Byte → Decoded × List Byte
  | hi :: lo :: rest => (decode (opcodeOf hi lo), rest)
  | short => (.rejected .truncated, short)

/-- The bytes of an opcode in memory order, high byte first (20_memory.md R46, 30_encoding.md R65). -/
def opcodeBytes (op : Word) : List Byte := [op.extractLsb' 8 8, op.extractLsb' 0 8]

/-- The opcode word of a table row's bits: the first `nbits` of `w`, every higher bit 0. -/
def tableWord (nbits w : Nat) : Word := BitVec.ofNat 16 (w % 2 ^ nbits)

/-- What the decoder reads from an instruction whose bits are `w`, numbered as the opcode table numbers them. -/
def decodeTableWord (nbits w : Nat) : Option Instr :=
  match (decodeBytes (opcodeBytes (tableWord nbits w))).1 with
  | .instr i => some i
  | .rejected _ => none

/-! ## The opcode map as a table (R69) -/

/-- One row of the opcode map: `op & mask = pattern` selects it, `build` reads its operands. -/
structure Row where
  mnemonic : String
  pattern  : Word
  mask     : Word
  build    : Fields → Instr

/-- `op & mask = match` (30_encoding.md R69). -/
def Row.selects (r : Row) (op : Word) : Bool := op &&& r.mask == r.pattern

/-- Rows of groups 0x0 to 0x7. -/
def rowsLow : List Row :=
  [ ⟨"CLS", 0x00E0#16, 0xF0FF#16, fun _ => .cls⟩,
    ⟨"RET", 0x00EE#16, 0xF0FF#16, fun _ => .ret⟩,
    ⟨"JP_nnn", 0x1000#16, 0xF000#16, fun f => .jp f.nnn⟩,
    ⟨"CALL_nnn", 0x2000#16, 0xF000#16, fun f => .call f.nnn⟩,
    ⟨"SE_Vx__nn", 0x3000#16, 0xF000#16, fun f => .seImm f.x f.nn⟩,
    ⟨"SNE_Vx__nn", 0x4000#16, 0xF000#16, fun f => .sneImm f.x f.nn⟩,
    ⟨"SE_Vx__Vy", 0x5000#16, 0xF000#16, fun f => .seReg f.x f.y⟩,
    ⟨"LD_Vx__nn", 0x6000#16, 0xF000#16, fun f => .ldImm f.x f.nn⟩,
    ⟨"ADD_Vx__nn", 0x7000#16, 0xF000#16, fun f => .addImm f.x f.nn⟩ ]

/-- Rows of groups 0x8 to 0xD. -/
def rowsMid : List Row :=
  [ ⟨"LD_Vx__Vy", 0x8000#16, 0xF00F#16, fun f => .ldReg f.x f.y⟩,
    ⟨"OR_Vx__Vy", 0x8001#16, 0xF00F#16, fun f => .orReg f.x f.y⟩,
    ⟨"AND_Vx__Vy", 0x8002#16, 0xF00F#16, fun f => .andReg f.x f.y⟩,
    ⟨"XOR_Vx__Vy", 0x8003#16, 0xF00F#16, fun f => .xorReg f.x f.y⟩,
    ⟨"ADD_Vx__Vy", 0x8004#16, 0xF00F#16, fun f => .addReg f.x f.y⟩,
    ⟨"SUB_Vx__Vy", 0x8005#16, 0xF00F#16, fun f => .subReg f.x f.y⟩,
    ⟨"SHR_Vx____Vy", 0x8006#16, 0xF00F#16, fun f => .shr f.x f.y⟩,
    ⟨"SUBN_Vx__Vy", 0x8007#16, 0xF00F#16, fun f => .subnReg f.x f.y⟩,
    ⟨"SHL_Vx____Vy", 0x800E#16, 0xF00F#16, fun f => .shl f.x f.y⟩,
    ⟨"SNE_Vx__Vy", 0x9000#16, 0xF000#16, fun f => .sneReg f.x f.y⟩,
    ⟨"LD_I__nnn", 0xA000#16, 0xF000#16, fun f => .ldI f.nnn⟩,
    ⟨"JP_V0__nnn", 0xB000#16, 0xF000#16, fun f => .jpV0 f.nnn⟩,
    ⟨"RND_Vx__nn", 0xC000#16, 0xF000#16, fun f => .rnd f.x f.nn⟩,
    ⟨"DRW_Vx__Vy__n", 0xD000#16, 0xF000#16, fun f => .drw f.x f.y f.n⟩ ]

/-- Rows of groups 0xE and 0xF. -/
def rowsHigh : List Row :=
  [ ⟨"SKP_Vx", 0xE09E#16, 0xF0FF#16, fun f => .skp f.x⟩,
    ⟨"SKNP_Vx", 0xE0A1#16, 0xF0FF#16, fun f => .sknp f.x⟩,
    ⟨"LD_Vx__DT", 0xF007#16, 0xF0FF#16, fun f => .ldVxDt f.x⟩,
    ⟨"LD_Vx__K", 0xF00A#16, 0xF0FF#16, fun f => .ldVxK f.x⟩,
    ⟨"LD_DT__Vx", 0xF015#16, 0xF0FF#16, fun f => .ldDtVx f.x⟩,
    ⟨"LD_ST__Vx", 0xF018#16, 0xF0FF#16, fun f => .ldStVx f.x⟩,
    ⟨"ADD_I__Vx", 0xF01E#16, 0xF0FF#16, fun f => .addI f.x⟩,
    ⟨"LD_F__Vx", 0xF029#16, 0xF0FF#16, fun f => .ldF f.x⟩,
    ⟨"LD_B__Vx", 0xF033#16, 0xF0FF#16, fun f => .ldB f.x⟩,
    ⟨"LD__I___Vx", 0xF055#16, 0xF0FF#16, fun f => .stRegs f.x⟩,
    ⟨"LD_Vx___I", 0xF065#16, 0xF0FF#16, fun f => .ldRegs f.x⟩ ]

/-- The 34 rows of 30_encoding.md R69, in its order. -/
def rows : List Row := rowsLow ++ rowsMid ++ rowsHigh

/-! ## The encoder -/

/-- Format `NNN` (30_encoding.md R66). -/
def formNNN (g : Nibble) (nnn : Imm12) : Word := g ++ nnn

/-- Format `XNN`, and `S`, `XS` with a sub-selector as the low byte (30_encoding.md R66). -/
def formXNN (g x : Nibble) (nn : Byte) : Word := g ++ x ++ nn

/-- Format `XYN`, and `XY` with a sub-selector as the low nibble (30_encoding.md R66). -/
def formXYN (g x y n : Nibble) : Word := g ++ x ++ y ++ n

/-- The word of an instruction (30_encoding.md R66, R69). A bit the decoder ignores is written 0 (log 25). -/
def encode : Instr → Word
  | .cls => formXNN 0x0 0 0xE0
  | .ret => formXNN 0x0 0 0xEE
  | .jp nnn => formNNN 0x1 nnn
  | .call nnn => formNNN 0x2 nnn
  | .seImm x nn => formXNN 0x3 x nn
  | .sneImm x nn => formXNN 0x4 x nn
  | .seReg x y => formXYN 0x5 x y 0
  | .ldImm x nn => formXNN 0x6 x nn
  | .addImm x nn => formXNN 0x7 x nn
  | .ldReg x y => formXYN 0x8 x y 0x0
  | .orReg x y => formXYN 0x8 x y 0x1
  | .andReg x y => formXYN 0x8 x y 0x2
  | .xorReg x y => formXYN 0x8 x y 0x3
  | .addReg x y => formXYN 0x8 x y 0x4
  | .subReg x y => formXYN 0x8 x y 0x5
  | .shr x y => formXYN 0x8 x y 0x6
  | .subnReg x y => formXYN 0x8 x y 0x7
  | .shl x y => formXYN 0x8 x y 0xE
  | .sneReg x y => formXYN 0x9 x y 0
  | .ldI nnn => formNNN 0xA nnn
  | .jpV0 nnn => formNNN 0xB nnn
  | .rnd x nn => formXNN 0xC x nn
  | .drw x y n => formXYN 0xD x y n
  | .skp x => formXNN 0xE x 0x9E
  | .sknp x => formXNN 0xE x 0xA1
  | .ldVxDt x => formXNN 0xF x 0x07
  | .ldVxK x => formXNN 0xF x 0x0A
  | .ldDtVx x => formXNN 0xF x 0x15
  | .ldStVx x => formXNN 0xF x 0x18
  | .addI x => formXNN 0xF x 0x1E
  | .ldF x => formXNN 0xF x 0x29
  | .ldB x => formXNN 0xF x 0x33
  | .stRegs x => formXNN 0xF x 0x55
  | .ldRegs x => formXNN 0xF x 0x65

/-- The opcode bits an instruction's decoding looks at: all but the ignored ones of 30_encoding.md R70 and R73. -/
def usedBits : Instr → Word
  | .cls | .ret => 0xF0FF#16
  | .seReg _ _ | .sneReg _ _ => 0xFFF0#16
  | .jp _ | .call _ | .seImm _ _ | .sneImm _ _ | .ldImm _ _ | .addImm _ _ | .ldReg _ _ | .orReg _ _ | .andReg _ _
  | .xorReg _ _ | .addReg _ _ | .subReg _ _ | .shr _ _ | .subnReg _ _ | .shl _ _ | .ldI _ | .jpV0 _ | .rnd _ _
  | .drw _ _ _ | .skp _ | .sknp _ | .ldVxDt _ | .ldVxK _ | .ldDtVx _ | .ldStVx _ | .addI _ | .ldF _ | .ldB _
  | .stRegs _ | .ldRegs _ => 0xFFFF#16

end Sys2Proof
end

