-- ==== Sys2Proof/Config.lean ====
section
/-! DEFINITION. The fixed parameters of this hardware (00_scope.md R6, R7) and its one free value. -/

namespace Sys2Proof.Config

/-- `MEM_SIZE`: bytes of memory (00_scope.md R6). -/
abbrev memSize : Nat := 4096

/-- `ENTRY`: where a program is loaded and starts (00_scope.md R6). -/
abbrev entry : Nat := 0x200

/-- `FONT_BASE`: where the glyph of digit 0 starts (00_scope.md R7). -/
abbrev fontBase : Nat := 0

/-- `GLYPH_BYTES`: bytes of one glyph (00_scope.md R6). -/
abbrev glyphBytes : Nat := 5

/-- `STACK_DEPTH`: entries of the call stack (00_scope.md R6). -/
abbrev stackDepth : Nat := 12

/-- `W`: display columns (00_scope.md R6). -/
abbrev width : Nat := 64

/-- `H`: display rows (00_scope.md R6). -/
abbrev height : Nat := 32

/-- The largest program image: `MEM_SIZE - ENTRY` bytes (70_reset_and_hazards.md R210). -/
abbrev maxImage : Nat := memSize - entry

/-- FREE VALUE (log 2): the random byte of the `k`-th `RND` when the host has not supplied one.
The spec assumes nothing of it but its width (00_scope.md R10, 41_register_alu.md R124), so it has no body. -/
opaque freeRnd : Nat → Byte

end Sys2Proof.Config
end

