-- ==== Sys2Proof/Machine/State.lean ====
section
/-! DEFINITION. The state of the core (10_state.md R37), the reasons a step can stop, and the state after reset. -/

namespace Sys2Proof.Machine

/-- One display row, column 0 first (10_state.md R32). -/
abbrev DispRow := Vector Bool 64

/-- The display buffer, row 0 first, row-major (10_state.md R32). -/
abbrev Display := Vector DispRow 32

/-- Memory as its cells that differ from the reset contents, addresses strictly rising (20_memory.md R40, R51). -/
abbrev Memory := List Host.Cell

/-- The complete state (10_state.md R37), and the model's two own fields for the random draw (log 2). -/
structure State where
  /-- `V[0..15]`; `V[15]` is `VF` (R20, R21) -/
  v      : Vector Byte 16
  /-- the index register `I` (R24) -/
  i      : Word
  /-- `PC` (R25) -/
  pc     : Word
  /-- `SP`, the entries in use, 0 to 12 (R28) -/
  sp     : Fin 13
  /-- `STACK[0..11]` (R27) -/
  stack  : Vector Word 12
  /-- the delay timer (R29) -/
  dt     : Byte
  /-- the sound timer (R29) -/
  st     : Byte
  /-- `DISP[y][x]` (R32) -/
  disp   : Display
  /-- `KEY[0..15]`, true while pressed (R34) -/
  keys   : Vector Bool 16
  /-- `MEM` (20_memory.md R40) -/
  mem    : Memory
  /-- `CFG`: bit 0 `SHIFT_USES_VY`, bit 1 `LS_INC_I` (R30) -/
  cfg    : BitVec 2
  /-- `STATUS`: bit 0 `FAULT`, bits 2:1 `CAUSE`, bit 3 `LOADED` (R31) -/
  status : BitVec 4
  /-- MODEL'S OWN (log 2): random bytes the host has supplied and no `RND` has drawn, next first (00_scope.md R10) -/
  rndIn  : List Byte
  /-- MODEL'S OWN (log 2): how many `RND` have run; where `rndIn` is empty the free value is taken at this count -/
  draws  : Nat
deriving DecidableEq, Repr

/-- Faults that end a run. The core has none: its two stack faults are states of the machine (`STATUS.FAULT = 1`,
60_exceptions.md R182, R183; log 18), so a step answers a next state, and nothing else is an exception (R184). Nobody
raises one, which is safe. -/
inductive Fault where
deriving DecidableEq, Repr

/-- Why a step has no meaning. -/
inductive Refusal where
  /-- An instruction the model gives no meaning; raised by no arm of `exec` (all 34 have theirs). Safe. -/
  | notModelled (mnemonic : String)
  /-- A Step or Tick before the first successful Load, which the spec refuses (30_encoding.md R60,
  60_exceptions.md R197); raised by `step` and by the host's Tick while `STATUS.LOADED = 0`. Safe. -/
  | notLoaded
deriving DecidableEq, Repr

/-- The two causes of a stack fault (60_exceptions.md R180, R181). -/
inductive Cause where
  | stackOverflow
  | stackUnderflow
deriving DecidableEq, Repr

/-- The state after reset: what a successful Load leaves (70_reset_and_hazards.md R211), for the empty image (R213) and
the power-on `CFG` (R217). Log 1 says why it is this one; log 2 names the values of the model's own fields. -/
def State.reset : State :=
  { v := Vector.replicate 16 0
    i := 0
    pc := 0x200
    sp := 0
    stack := Vector.replicate 12 0
    dt := 0
    st := 0
    disp := Vector.replicate 32 (Vector.replicate 64 false)
    keys := Vector.replicate 16 false
    mem := []
    cfg := 0
    status := 0b1000
    rndIn := []
    draws := 0 }

end Sys2Proof.Machine
end

