-- ==== Sys2Proof/Machine/Operands.lean ====
section
/-! DEFINITION. Registers and operand forms: register access, low nibbles, the shift source, the font address, the
key scan, the draw of `RND`. -/

namespace Sys2Proof.Machine

/-- Register 15, the flag register `VF` (10_state.md R21). -/
abbrev vf : Nibble := 0xF#4

/-- `V[x]` read (00_scope.md R12). No register is hard-wired (10_state.md R20). -/
def State.reg (s : State) (x : Nibble) : Byte := s.v[x.toNat]'(x.isLt)

/-- `V[x] <- b` (00_scope.md R12). -/
def State.setReg (s : State) (x : Nibble) (b : Byte) : State := { s with v := s.v.set x.toNat b x.isLt }

/-- `CFG.SHIFT_USES_VY` (10_state.md R30). -/
def State.shiftUsesVy (s : State) : Bool := s.cfg.getLsbD 0

/-- `CFG.LS_INC_I` (10_state.md R30). -/
def State.lsIncI (s : State) : Bool := s.cfg.getLsbD 1

/-- The value `SHR` and `SHL` shift: `V[y]` under `SHIFT_USES_VY`, else `V[x]` (41_register_alu.md R123). -/
def State.shiftSource (s : State) (x y : Nibble) : Byte := if s.shiftUsesVy then s.reg y else s.reg x

/-- The hexadecimal digit or key index in a register: its low nibble (42_index_memory.md R142,
43_display_input_timer.md R162). -/
def lowNibble (b : Byte) : Nibble := b.extractLsb' 0 4

/-- The address of a digit's glyph: `FONT_BASE + 5 * digit` (00_scope.md R7, 42_index_memory.md R142). -/
def glyphAddress (digit : Nibble) : Word := BitVec.ofNat 16 (Config.fontBase + Config.glyphBytes * digit.toNat)

/-- The logical address of the `k`-th byte at the index register (42_index_memory.md R146): a sum the address generator
reduces, not a 16-bit one. -/
def State.indexed (s : State) (k : Nat) : Nat := s.i.toNat + k

/-- `KEY[k]` (10_state.md R34). -/
def State.key (s : State) (k : Nibble) : Bool := s.keys[k.toNat]'(k.isLt)

/-- The order in which `LD Vx, K` scans the keys: 0 through 15 (43_display_input_timer.md R167). -/
def scanOrder : List Nibble := [0, 1, 2, 3, 4, 5, 6, 7, 8, 9, 10, 11, 12, 13, 14, 15]

/-- The pressed key of lowest index, if any is pressed (43_display_input_timer.md R167). -/
def State.firstKey (s : State) : Option Nibble := scanOrder.find? (fun k => s.key k)

/-- The random byte the next `RND` draws: the host's, else the free value (41_register_alu.md R124; log 2). -/
def State.rndDraw (s : State) : Byte :=
  match s.rndIn with
  | r :: _ => r
  | [] => Config.freeRnd s.draws

/-- The state once that byte is drawn, so that the next draw is a fresh one. -/
def State.drawn (s : State) : State := { s with rndIn := s.rndIn.tail, draws := s.draws + 1 }

end Sys2Proof.Machine
end

