-- ==== Sys2Proof/Machine/Flags.lean ====
section
/-! DEFINITION. The flags of the ALU (10_state.md R23): a flag is a value of `VF`, 1 or 0. -/

namespace Sys2Proof.Machine

/-- A flag as the byte `VF` receives (10_state.md R23). -/
def flagByte (c : Bool) : Byte := if c then 1 else 0

/-- Carry out of bit 7: the exact sum exceeds 255 (41_register_alu.md R118). -/
def carryFlag (a b : Byte) : Bool := decide (a.toNat + b.toNat > 255)

/-- No borrow in `a - b` (41_register_alu.md R119, R121); equal operands do not borrow (log 8). -/
def noBorrowFlag (a b : Byte) : Bool := decide (a.toNat ≥ b.toNat)

/-- The bit a right shift moves out: bit 0 (41_register_alu.md R120; log 9). -/
def shrFlag (v : Byte) : Bool := v.getLsbD 0

/-- The bit a left shift moves out: bit 7 (41_register_alu.md R122; log 9). -/
def shlFlag (v : Byte) : Bool := v.getLsbD 7

/-- `VF <- flag`, then `V[x] <- result`, in that order: with `x = 15` the result stays (41_register_alu.md R113). -/
def State.setFlagged (s : State) (x : Nibble) (flag : Bool) (result : Byte) : State :=
  (s.setReg vf (flagByte flag)).setReg x result

end Sys2Proof.Machine
end

