-- ==== Sys2Proof/Machine/Memory.lean ====
section
/-! DEFINITION. Memory: the font, the reset contents, the address generator, byte reads and writes (20_memory.md). -/

namespace Sys2Proof.Machine

/-- The default of the parameter `FONT`: 16 glyphs of five bytes, top row first (10_state.md R33; log 3). -/
def font : List Byte :=
  [ 0xF0, 0x90, 0x90, 0x90, 0xF0,   0x20, 0x60, 0x20, 0x20, 0x70,
    0xF0, 0x10, 0xF0, 0x80, 0xF0,   0xF0, 0x10, 0xF0, 0x10, 0xF0 ]
  ++
  [ 0x90, 0x90, 0xF0, 0x10, 0x10,   0xF0, 0x80, 0xF0, 0x10, 0xF0,
    0xF0, 0x80, 0xF0, 0x90, 0xF0,   0xF0, 0x10, 0x20, 0x40, 0x40 ]
  ++
  [ 0xF0, 0x90, 0xF0, 0x90, 0xF0,   0xF0, 0x90, 0xF0, 0x10, 0xF0,
    0xF0, 0x90, 0xF0, 0x90, 0x90,   0xE0, 0x90, 0xE0, 0x90, 0xE0 ]
  ++
  [ 0xF0, 0x80, 0x80, 0x80, 0xF0,   0xE0, 0x90, 0x90, 0x90, 0xE0,
    0xF0, 0x80, 0xF0, 0x80, 0xF0,   0xF0, 0x80, 0xF0, 0x80, 0x80 ]

/-- What an address the memory does not list reads as: the reset contents, `FONT` at 0x000..0x04F and 0 elsewhere
(20_memory.md R51; log 14). -/
def background (a : Nat) : Byte := font.getD a 0

/-- The address generator: a logical address reduced to a cell of memory (20_memory.md R44; log 6). -/
def effective (a : Nat) : Nat := a % Config.memSize

/-- The contents of cell `a`. -/
def cellAt : Memory → Nat → Byte
  | [], a => background a
  | (b, w) :: rest, a => if b = a then w else cellAt rest a

/-- `w` in cell `a` in front of cells at higher addresses, listed only where it differs from the reset contents. -/
def consCell (a : Nat) (w : Byte) (rest : Memory) : Memory := if w = background a then rest else (a, w) :: rest

/-- The memory with `w` in cell `a`, the canonical form kept. -/
def setCell : Memory → Nat → Byte → Memory
  | [], a, w => consCell a w []
  | (b, u) :: rest, a, w =>
    if a < b then consCell a w ((b, u) :: rest)
    else if a = b then consCell a w rest
    else (b, u) :: setCell rest a w

/-- `MemRead(a, 1)` (00_scope.md R13). -/
def memRead (m : Memory) (a : Nat) : Byte := cellAt m (effective a)

/-- `MemWrite(a, 1, w)` (00_scope.md R13). Every address is writable (20_memory.md R45). -/
def memWrite (m : Memory) (a : Nat) (w : Byte) : Memory := setCell m (effective a) w

/-- Consecutive byte writes in ascending order from logical address `a` (20_memory.md R49). -/
def memWriteAll (m : Memory) (a : Nat) : List Byte → Memory
  | [] => m
  | w :: ws => memWriteAll (memWrite m a w) (a + 1) ws

/-- Listed addresses rise strictly from above `lo`, stay in memory, and differ from the reset contents. -/
def wfFrom (lo : Nat) : Memory → Bool
  | [] => true
  | (a, w) :: rest => decide (lo ≤ a) && decide (a < Config.memSize) && decide (w ≠ background a) && wfFrom (a + 1) rest

/-- The canonical form of a memory. -/
def Memory.wf (m : Memory) : Bool := wfFrom 0 m

end Sys2Proof.Machine
end

