-- ==== Sys2Proof/Machine/Ops.lean ====
section
/-! DEFINITION. The operations instructions share: the status register, taking a stack fault, fetching, skips, the call
stack, the register dump and load, the display. `exec` receives the state after the fetch, with `PC = pc_insn + 2`
(30_encoding.md R61; log 23). -/

namespace Sys2Proof.Machine

/-! ## `STATUS` (10_state.md R31) -/

/-- `STATUS.FAULT`, bit 0. -/
def State.faulted (s : State) : Bool := s.status.getLsbD 0

/-- `STATUS.CAUSE`, bits 2:1. -/
def State.cause (s : State) : BitVec 2 := s.status.extractLsb' 1 2

/-- `STATUS.LOADED`, bit 3. -/
def State.isLoaded (s : State) : Bool := s.status.getLsbD 3

/-- The status word of its three fields. -/
def statusWord (loaded : Bool) (cause : BitVec 2) (fault : Bool) : BitVec 4 :=
  BitVec.ofBool loaded ++ cause ++ BitVec.ofBool fault

/-- `STATUS` as a successful Load leaves it (70_reset_and_hazards.md R211). -/
def runningStatus : BitVec 4 := statusWord true 0 false

/-! ## Taking a stack fault -/

/-- The cause code of a fault (60_exceptions.md R180, R181). -/
def Cause.code : Cause → BitVec 2
  | .stackOverflow => 1
  | .stackUnderflow => 2

/-- `pc_insn`, the address the executing instruction was fetched from (00_scope.md R14, 30_encoding.md R61). -/
def State.pcInsn (s : State) : Word := s.pc - 2

/-- Fault entry (60_exceptions.md R183): `PC <- pc_insn`, `FAULT <- 1`, `CAUSE <- code`, nothing else; `LOADED` keeps
its value. There is no return from a fault (R187): only a Load leaves the state. -/
def State.raise (s : State) (c : Cause) : State :=
  { s with pc := s.pcInsn, status := statusWord s.isLoaded c.code true }

/-! ## Fetch -/

/-- The opcode at `PC`: two byte reads, high byte first, each reduced by the address generator (20_memory.md R47). -/
def State.fetch (s : State) : Word := opcodeOf (memRead s.mem s.pc.toNat) (memRead s.mem (s.pc.toNat + 1))

/-- The fetch's advance of `PC`, modulo 0x10000 (30_encoding.md R61). -/
def State.advance (s : State) : State := { s with pc := s.pc + 2 }

/-- The state with the opcode `op` stored where the next fetch reads. -/
def State.withOpcodeAtPc (s : State) (op : Word) : State :=
  { s with mem := memWriteAll s.mem s.pc.toNat (opcodeBytes op) }

/-- The state with the core ready to step: `STATUS` as after a Load, unless it is ready already. -/
def State.madeReady (s : State) : State :=
  if s.isLoaded && !s.faulted then s else { s with status := runningStatus }

/-! ## Control transfer -/

/-- `PC <- target`. -/
def State.jump (s : State) (target : Word) : State := { s with pc := target }

/-- A skip: two more on the advanced `PC` when the condition holds (40_control_flow.md R98). -/
def State.skipIf (s : State) (c : Bool) : State := { s with pc := if c then s.pc + 2 else s.pc }

/-- `STACK[SP] <- w; SP <- SP + 1`, or nothing when all 12 entries are in use (40_control_flow.md R92). -/
def State.push (s : State) (w : Word) : Option State :=
  if h : s.sp.val < 12 then
    some { s with stack := s.stack.set s.sp.val w h, sp := ⟨s.sp.val + 1, Nat.succ_lt_succ h⟩ }
  else none

/-- `SP <- SP - 1` and the entry then at `SP`, or nothing when the stack is empty (40_control_flow.md R90). The entry
keeps its value (10_state.md R27; log 17). -/
def State.pop (s : State) : Option (Word × State) :=
  if h : s.sp.val = 0 then none
  else
    some (s.stack[s.sp.val - 1]'(by omega), { s with sp := ⟨s.sp.val - 1, by omega⟩ })

/-! ## Register dump and load -/

/-- The values of `V[0]`..`V[x]` (30_encoding.md R68). -/
def State.regsUpTo (s : State) (x : Nibble) : List Byte := s.v.toList.take (x.toNat + 1)

/-- The decimal digits of a byte: hundreds, tens, ones (42_index_memory.md R143). -/
def bcdDigits (v : Byte) : List Byte :=
  [BitVec.ofNat 8 (v.toNat / 100), BitVec.ofNat 8 (v.toNat / 10 % 10), BitVec.ofNat 8 (v.toNat % 10)]

/-- Bytes stored at `I`, `I + 1`, ... in ascending order (20_memory.md R49). -/
def State.storeAtIndex (s : State) (bytes : List Byte) : State :=
  { s with mem := memWriteAll s.mem (s.indexed 0) bytes }

/-- `V[k] <- MemRead(I + k, 1)` for the first `count` registers, in ascending order (42_index_memory.md R145). -/
def State.loadRegs (s : State) : Nat → State
  | 0 => s
  | k + 1 => (s.loadRegs k).setReg (BitVec.ofNat 4 k) (memRead s.mem (s.indexed k))

/-- Under `LS_INC_I`, `I <- I + x + 1` modulo 0x10000 after the accesses, else `I` as it was (42_index_memory.md R147). -/
def State.bumpIndex (s : State) (x : Nibble) : State :=
  { s with i := if s.lsIncI then s.i + BitVec.ofNat 16 (x.toNat + 1) else s.i }

/-! ## Display -/

/-- Every pixel false (43_display_input_timer.md R160). -/
def clearDisplay : Display := Vector.replicate 32 (Vector.replicate 64 false)

/-- `DISP[y][x]`; a position outside the buffer holds no pixel and reads false. -/
def pixelAt (d : Display) (y x : Nat) : Bool := if h : y < 32 ∧ x < 64 then (d[y]'h.1)[x]'h.2 else false

/-- `DISP[y][x] <- not DISP[y][x]`; a position outside the buffer is never written (43_display_input_timer.md R168). -/
def flipPixel (d : Display) (y x : Nat) : Display :=
  if h : y < 32 ∧ x < 64 then d.set y ((d[y]'h.1).set x (!(d[y]'h.1)[x]'h.2) h.2) h.1 else d

/-- The pixels `k`, `k + 1`, ... of sprite byte `b` (`count` of them) drawn in row `y` from column `x0`, the most
significant bit leftmost; drawing stops at the right edge. The Bool gathers collisions (43_display_input_timer.md R161,
R168). -/
def drawPixels (b : Byte) (y x0 : Nat) : (count k : Nat) → Display × Bool → Display × Bool
  | 0, _, dc => dc
  | count + 1, k, dc =>
    if x0 + k ≥ Config.width then dc
    else if b.getLsbD (7 - k) then
      drawPixels b y x0 count (k + 1) (flipPixel dc.1 y (x0 + k), dc.2 || pixelAt dc.1 y (x0 + k))
    else drawPixels b y x0 count (k + 1) dc

/-- Rows `r`, `r + 1`, ... of a sprite (`count` of them) read from memory at `base` and drawn from `(x0, y0)`; drawing
stops at the bottom edge (43_display_input_timer.md R161, R168). -/
def drawRows (m : Memory) (base x0 y0 : Nat) : (count r : Nat) → Display × Bool → Display × Bool
  | 0, _, dc => dc
  | count + 1, r, dc =>
    if y0 + r ≥ Config.height then dc
    else drawRows m base x0 y0 count (r + 1) (drawPixels (memRead m (base + r)) (y0 + r) x0 8 0 dc)

/-- The display after a sprite of `n` rows drawn with its origin reduced modulo the display's size, and whether a pixel
collided (43_display_input_timer.md R161). -/
def State.sprite (s : State) (x y n : Nibble) : Display × Bool :=
  drawRows s.mem (s.indexed 0) ((s.reg x).toNat % Config.width) ((s.reg y).toNat % Config.height) n.toNat 0 (s.disp, false)

end Sys2Proof.Machine
end

