-- ==== Sys2Proof/Machine/Alu.lean ====
section
/-! DEFINITION. Register loads, the ALU and `RND` (41_register_alu.md R110 to R126). Every result wraps modulo 256. -/

namespace Sys2Proof.Machine

/-- `LD Vx, nn` (R110). -/
def execLdImm (x : Nibble) (nn : Byte) (s : State) : Host.Outcome State Fault Refusal := .next (s.setReg x nn)

/-- `ADD Vx, nn` (R111): no flag. -/
def execAddImm (x : Nibble) (nn : Byte) (s : State) : Host.Outcome State Fault Refusal := .next (s.setReg x (s.reg x + nn))

/-- `LD Vx, Vy` (R114). -/
def execLdReg (x y : Nibble) (s : State) : Host.Outcome State Fault Refusal := .next (s.setReg x (s.reg y))

/-- `OR Vx, Vy` (R115): no flag. -/
def execOrReg (x y : Nibble) (s : State) : Host.Outcome State Fault Refusal := .next (s.setReg x (s.reg x ||| s.reg y))

/-- `AND Vx, Vy` (R116): no flag. -/
def execAndReg (x y : Nibble) (s : State) : Host.Outcome State Fault Refusal := .next (s.setReg x (s.reg x &&& s.reg y))

/-- `XOR Vx, Vy` (R117): no flag. -/
def execXorReg (x y : Nibble) (s : State) : Host.Outcome State Fault Refusal := .next (s.setReg x (s.reg x ^^^ s.reg y))

/-- `ADD Vx, Vy` (R118): the carry to `VF`, then the sum to `V[x]`. -/
def execAddReg (x y : Nibble) (s : State) : Host.Outcome State Fault Refusal :=
  .next (s.setFlagged x (carryFlag (s.reg x) (s.reg y)) (s.reg x + s.reg y))

/-- `SUB Vx, Vy` (R119): `VF` is 1 when no borrow occurs. -/
def execSubReg (x y : Nibble) (s : State) : Host.Outcome State Fault Refusal :=
  .next (s.setFlagged x (noBorrowFlag (s.reg x) (s.reg y)) (s.reg x - s.reg y))

/-- `SHR Vx {, Vy}` (R120). -/
def execShr (x y : Nibble) (s : State) : Host.Outcome State Fault Refusal :=
  .next (s.setFlagged x (shrFlag (s.shiftSource x y)) (s.shiftSource x y >>> 1))

/-- `SUBN Vx, Vy` (R121): `V[y] - V[x]` into `V[x]`. -/
def execSubnReg (x y : Nibble) (s : State) : Host.Outcome State Fault Refusal :=
  .next (s.setFlagged x (noBorrowFlag (s.reg y) (s.reg x)) (s.reg y - s.reg x))

/-- `SHL Vx {, Vy}` (R122). -/
def execShl (x y : Nibble) (s : State) : Host.Outcome State Fault Refusal :=
  .next (s.setFlagged x (shlFlag (s.shiftSource x y)) (s.shiftSource x y <<< 1))

/-- `RND Vx, nn` (R124): a byte drawn afresh, masked. -/
def execRnd (x : Nibble) (nn : Byte) (s : State) : Host.Outcome State Fault Refusal :=
  .next (s.drawn.setReg x (s.rndDraw &&& nn))

end Sys2Proof.Machine
end

