-- ==== Sys2Proof/Machine/ControlFlow.lean ====
section
/-! DEFINITION. Control transfer (40_control_flow.md R90 to R100) and the dispatch miss. -/

namespace Sys2Proof.Machine

/-- `RET` (R90): pop `PC`, or `StackUnderflow` on an empty stack. -/
def execRet (s : State) : Host.Outcome State Fault Refusal :=
  match s.pop with
  | some (target, t) => .next (t.jump target)
  | none => .next (s.raise .stackUnderflow)

/-- `JP nnn` (R91). -/
def execJp (nnn : Imm12) (s : State) : Host.Outcome State Fault Refusal := .next (s.jump (nnn.setWidth 16))

/-- `CALL nnn` (R92): push the advanced `PC` and jump, or `StackOverflow` on a full stack. -/
def execCall (nnn : Imm12) (s : State) : Host.Outcome State Fault Refusal :=
  match s.push s.pc with
  | some t => .next (t.jump (nnn.setWidth 16))
  | none => .next (s.raise .stackOverflow)

/-- `SE Vx, nn` (R93). -/
def execSeImm (x : Nibble) (nn : Byte) (s : State) : Host.Outcome State Fault Refusal := .next (s.skipIf (s.reg x == nn))

/-- `SNE Vx, nn` (R94). -/
def execSneImm (x : Nibble) (nn : Byte) (s : State) : Host.Outcome State Fault Refusal := .next (s.skipIf (s.reg x != nn))

/-- `SE Vx, Vy` (R95). -/
def execSeReg (x y : Nibble) (s : State) : Host.Outcome State Fault Refusal := .next (s.skipIf (s.reg x == s.reg y))

/-- `SNE Vx, Vy` (R96). -/
def execSneReg (x y : Nibble) (s : State) : Host.Outcome State Fault Refusal := .next (s.skipIf (s.reg x != s.reg y))

/-- `JP V0, nnn` (R97): the register is always `V[0]`, and the sum is not reduced to 12 bits. -/
def execJpV0 (nnn : Imm12) (s : State) : Host.Outcome State Fault Refusal :=
  .next (s.jump (nnn.setWidth 16 + (s.reg 0).setWidth 16))

/-- An opcode no row selects (30_encoding.md R64): the fetch's advance was its whole effect. -/
def execDispatchMiss (s : State) : Host.Outcome State Fault Refusal := .next s

end Sys2Proof.Machine
end

