-- ==== Sys2Proof/Machine/DisplayInput.lean ====
section
/-! DEFINITION. The display, input and timer instructions (43_display_input_timer.md R160 to R169). -/

namespace Sys2Proof.Machine

/-- `CLS` (R160). -/
def execCls (s : State) : Host.Outcome State Fault Refusal := .next { s with disp := clearDisplay }

/-- `DRW Vx, Vy, n` (R161): the sprite is drawn, then `VF` receives the collision. -/
def execDrw (x y n : Nibble) (s : State) : Host.Outcome State Fault Refusal :=
  .next (State.setReg { s with disp := (s.sprite x y n).1 } vf (flagByte (s.sprite x y n).2))

/-- `SKP Vx` (R162). -/
def execSkp (x : Nibble) (s : State) : Host.Outcome State Fault Refusal :=
  .next (s.skipIf (s.key (lowNibble (s.reg x))))

/-- `SKNP Vx` (R163). -/
def execSknp (x : Nibble) (s : State) : Host.Outcome State Fault Refusal :=
  .next (s.skipIf (!s.key (lowNibble (s.reg x))))

/-- `LD Vx, DT` (R164). -/
def execLdVxDt (x : Nibble) (s : State) : Host.Outcome State Fault Refusal := .next (s.setReg x s.dt)

/-- `LD DT, Vx` (R165). -/
def execLdDtVx (x : Nibble) (s : State) : Host.Outcome State Fault Refusal := .next { s with dt := s.reg x }

/-- `LD ST, Vx` (R166). -/
def execLdStVx (x : Nibble) (s : State) : Host.Outcome State Fault Refusal := .next { s with st := s.reg x }

/-- `LD Vx, K` (R167): the lowest pressed key, or with none pressed `PC` rewound by 2 so that the next Step fetches the
same instruction. -/
def execLdVxK (x : Nibble) (s : State) : Host.Outcome State Fault Refusal :=
  match s.firstKey with
  | some k => .next (s.setReg x (k.setWidth 8))
  | none => .next (s.jump s.pcInsn)

end Sys2Proof.Machine
end

