-- ==== Sys2Proof/Machine/IndexMemory.lean ====
section
/-! DEFINITION. The index register and the memory instructions (42_index_memory.md R140 to R147). -/

namespace Sys2Proof.Machine

/-- `LD I, nnn` (R140). -/
def execLdI (nnn : Imm12) (s : State) : Host.Outcome State Fault Refusal := .next { s with i := nnn.setWidth 16 }

/-- `ADD I, Vx` (R141): modulo 0x10000, no flag (log 10). -/
def execAddI (x : Nibble) (s : State) : Host.Outcome State Fault Refusal :=
  .next { s with i := s.i + (s.reg x).setWidth 16 }

/-- `LD F, Vx` (R142): the low nibble is the digit (log 12). -/
def execLdF (x : Nibble) (s : State) : Host.Outcome State Fault Refusal :=
  .next { s with i := glyphAddress (lowNibble (s.reg x)) }

/-- `LD B, Vx` (R143). -/
def execLdB (x : Nibble) (s : State) : Host.Outcome State Fault Refusal := .next (s.storeAtIndex (bcdDigits (s.reg x)))

/-- `LD [I], Vx` (R144): every address uses the value of `I` on entry. -/
def execStRegs (x : Nibble) (s : State) : Host.Outcome State Fault Refusal :=
  .next ((s.storeAtIndex (s.regsUpTo x)).bumpIndex x)

/-- `LD Vx, [I]` (R145): every address uses the value of `I` on entry. -/
def execLdRegs (x : Nibble) (s : State) : Host.Outcome State Fault Refusal :=
  .next ((s.loadRegs (x.toNat + 1)).bumpIndex x)

end Sys2Proof.Machine
end

