-- ==== Sys2Proof/Machine/Step.lean ====
section
/-! DEFINITION. One Step (30_encoding.md R60, R79), and an instruction placed where the next fetch reads. -/

namespace Sys2Proof.Machine

/-- One Step (R79): refused before a Load, no change in a faulted core (60_exceptions.md R182), else fetch, advance
`PC`, decode, execute; an opcode no row selects is a no-op (R64). -/
def step (s : State) : Host.Outcome State Fault Refusal :=
  if s.isLoaded = false then .refused .notLoaded
  else if s.faulted = true then .next s
  else
    match decode s.fetch with
    | .instr i => exec i s.advance
    | .rejected _ => execDispatchMiss s.advance

/-- The opcode of a table row stored at `PC`, in a core that is loaded and not faulted, so that the very next step
fetches and runs it (log 24). -/
def State.withFetchWord (s : State) (nbits w : Nat) : State := s.madeReady.withOpcodeAtPc (tableWord nbits w)

end Sys2Proof.Machine
end

