-- ==== Sys2Proof/Machine/Assembler.lean ====
section
/-! DEFINITION. The assembler's lines, their text and their bytes (30_encoding.md R77, R78). The syntax is the spec's own
decision D26 (log 28); it carries no semantics. -/

namespace Sys2Proof.Machine

/-- One line of assembly: an instruction with all its operands, a shift written without `Vy`, or a data word. -/
inductive AsmLine where
  | instr (i : Instr)
  /-- `SHR Vx`: the assembler writes `y = 0` -/
  | shrShort (x : Nibble)
  /-- `SHL Vx`: the assembler writes `y = 0` -/
  | shlShort (x : Nibble)
  /-- `DW nnnn` -/
  | dw (w : Word)
deriving DecidableEq, Repr

/-- The word of a line. -/
def AsmLine.word : AsmLine → Word
  | .instr i => encode i
  | .shrShort x => encode (.shr x 0)
  | .shlShort x => encode (.shl x 0)
  | .dw w => w

/-- The bytes of a program, two for each line, high byte first. -/
def assemble (lines : List AsmLine) : List Byte := lines.flatMap (fun l => opcodeBytes l.word)

/-- A word as a line: the instruction it decodes to, else a data word. -/
def disassemble (op : Word) : AsmLine :=
  match decode op with
  | .instr i => .instr i
  | .rejected _ => .dw op

/-! ## Text -/

/-- One hexadecimal digit. -/
def hexDigit (d : Nibble) : String :=
  ["0", "1", "2", "3", "4", "5", "6", "7", "8", "9", "A", "B", "C", "D", "E", "F"].getD d.toNat ""

/-- A byte as `0xhh`. -/
def hexByte (b : Byte) : String := "0x" ++ hexDigit (b.extractLsb' 4 4) ++ hexDigit (b.extractLsb' 0 4)

/-- A 12-bit address as `0xhhh`. -/
def hexAddress (a : Imm12) : String :=
  "0x" ++ hexDigit (a.extractLsb' 8 4) ++ hexDigit (a.extractLsb' 4 4) ++ hexDigit (a.extractLsb' 0 4)

/-- A word as `0xhhhh`. -/
def hexWord (w : Word) : String :=
  "0x" ++ hexDigit (w.extractLsb' 12 4) ++ hexDigit (w.extractLsb' 8 4) ++ hexDigit (w.extractLsb' 4 4)
    ++ hexDigit (w.extractLsb' 0 4)

/-- A register name, `V0` to `VF`. -/
def regName (x : Nibble) : String := "V" ++ hexDigit x

/-- A mnemonic with its operands, destination first. -/
def asmText (mnemonic : String) (operands : List String) : String := mnemonic ++ " " ++ String.intercalate ", " operands

/-- An instruction's text (30_encoding.md R69, R77). -/
def instrText : Instr → String
  | .cls => "CLS"
  | .ret => "RET"
  | .jp nnn => asmText "JP" [hexAddress nnn]
  | .call nnn => asmText "CALL" [hexAddress nnn]
  | .seImm x nn => asmText "SE" [regName x, hexByte nn]
  | .sneImm x nn => asmText "SNE" [regName x, hexByte nn]
  | .seReg x y => asmText "SE" [regName x, regName y]
  | .ldImm x nn => asmText "LD" [regName x, hexByte nn]
  | .addImm x nn => asmText "ADD" [regName x, hexByte nn]
  | .ldReg x y => asmText "LD" [regName x, regName y]
  | .orReg x y => asmText "OR" [regName x, regName y]
  | .andReg x y => asmText "AND" [regName x, regName y]
  | .xorReg x y => asmText "XOR" [regName x, regName y]
  | .addReg x y => asmText "ADD" [regName x, regName y]
  | .subReg x y => asmText "SUB" [regName x, regName y]
  | .shr x y => asmText "SHR" [regName x, regName y]
  | .subnReg x y => asmText "SUBN" [regName x, regName y]
  | .shl x y => asmText "SHL" [regName x, regName y]
  | .sneReg x y => asmText "SNE" [regName x, regName y]
  | .ldI nnn => asmText "LD" ["I", hexAddress nnn]
  | .jpV0 nnn => asmText "JP" ["V0", hexAddress nnn]
  | .rnd x nn => asmText "RND" [regName x, hexByte nn]
  | .drw x y n => asmText "DRW" [regName x, regName y, "0x" ++ hexDigit n]
  | .skp x => asmText "SKP" [regName x]
  | .sknp x => asmText "SKNP" [regName x]
  | .ldVxDt x => asmText "LD" [regName x, "DT"]
  | .ldVxK x => asmText "LD" [regName x, "K"]
  | .ldDtVx x => asmText "LD" ["DT", regName x]
  | .ldStVx x => asmText "LD" ["ST", regName x]
  | .addI x => asmText "ADD" ["I", regName x]
  | .ldF x => asmText "LD" ["F", regName x]
  | .ldB x => asmText "LD" ["B", regName x]
  | .stRegs x => asmText "LD" ["[I]", regName x]
  | .ldRegs x => asmText "LD" [regName x, "[I]"]

/-- A line's text. -/
def AsmLine.text : AsmLine → String
  | .instr i => instrText i
  | .shrShort x => asmText "SHR" [regName x]
  | .shlShort x => asmText "SHL" [regName x]
  | .dw w => asmText "DW" [hexWord w]

end Sys2Proof.Machine
end

