-- ==== Sys2Proof/Machine/HostOps.lean ====
section
/-! DEFINITION. The host's operations (60_exceptions.md R190 to R197, 70_reset_and_hazards.md R210 to R217). They are
serialised and land between Steps only (20_memory.md R54; log 19). -/

namespace Sys2Proof.Machine

/-! ## Load -/

/-- The one failure of the core's Load (70_reset_and_hazards.md R210, R215). -/
inductive LoadError where
  | tooLarge
deriving DecidableEq, Repr

/-- `MEM[0..4095] <- 0`: the reset contents with the font's cells zeroed (70_reset_and_hazards.md R211). -/
def zeroMemory : Memory := memWriteAll [] 0 (List.replicate font.length 0)

/-- The memory a Load leaves: zeros, then the font table, then the image (70_reset_and_hazards.md R211). -/
def loadedMemory (fontTable image : List Byte) : Memory :=
  memWriteAll (memWriteAll zeroMemory Config.fontBase fontTable) Config.entry image

/-- The state a successful Load leaves: everything reset, `CFG` unchanged (70_reset_and_hazards.md R211). The model's own
`rndIn` and `draws` are no state of the core and keep their values (log 2). -/
def State.loadedWith (s : State) (fontTable image : List Byte) : State :=
  { State.reset with
    mem := loadedMemory fontTable image
    status := runningStatus
    cfg := s.cfg
    rndIn := s.rndIn
    draws := s.draws }

/-- `Load(image)` with the font table as a parameter (00_scope.md R8): the size check precedes every effect
(70_reset_and_hazards.md R210 to R212). -/
def loadWith (fontTable image : List Byte) (s : State) : Except LoadError State :=
  if image.length > Config.maxImage then .error .tooLarge else .ok (s.loadedWith fontTable image)

/-- `Load(image)` with the default font (10_state.md R33). -/
def load (image : List Byte) (s : State) : Except LoadError State := loadWith font image s

/-! ## Tick, keys, configuration, outputs -/

/-- One off a timer, not below zero (60_exceptions.md R190). -/
def countDown (t : Byte) : Byte := if t = 0 then 0 else t - 1

/-- `Tick()` on the timers; nothing else changes (60_exceptions.md R190). -/
def State.tick (s : State) : State := { s with dt := countDown s.dt, st := countDown s.st }

/-- `SOUND = (ST != 0)` (60_exceptions.md R192). -/
def State.sound (s : State) : Bool := decide (s.st ≠ 0)

/-- `KEY[k] <- b` (60_exceptions.md R194). -/
def State.setKey (s : State) (k : Nibble) (b : Bool) : State := { s with keys := s.keys.set k.toNat b k.isLt }

/-- `CFG <- c` (60_exceptions.md R196). -/
def State.setConfig (s : State) (c : BitVec 2) : State := { s with cfg := c }

/-- `Step(rnd)` (60_exceptions.md R197): the byte the host draws for this Step, then the Step. -/
def stepWith (rnd : Byte) (s : State) : Host.Outcome State Fault Refusal := step { s with rndIn := [rnd] }

/-! ## One operation -/

/-- The rows of the host interface (60_exceptions.md R197). -/
inductive HostOp where
  | load (image : List Byte)
  | step (rnd : Byte)
  | tick
  | setKey (k : Nibble) (b : Bool)
  | setConfig (c : BitVec 2)
  | readDisp
  | readSound
  | readStatus
deriving DecidableEq, Repr

/-- What an operation returns (60_exceptions.md R197). -/
inductive Reply where
  | nothing
  | ok
  | loadError (e : LoadError)
  | sound (b : Bool)
  | disp (d : Display)
  | status (w : BitVec 4)
deriving DecidableEq, Repr

/-- A Step's outcome as an operation's: it returns nothing (60_exceptions.md R197). -/
def withReply (r : Reply) : Host.Outcome State Fault Refusal → Host.Outcome (State × Reply) Fault Refusal
  | .next s => .next (s, r)
  | .fault f => .fault f
  | .refused e => .refused e

/-- One host operation: the state after it and what it returns (60_exceptions.md R197). Step and Tick are refused
before the first successful Load; Tick acts in a faulted core too (R182). -/
def perform (o : HostOp) (s : State) : Host.Outcome (State × Reply) Fault Refusal :=
  match o with
  | .load image =>
    match load image s with
    | .ok t => .next (t, .ok)
    | .error e => .next (s, .loadError e)
  | .step rnd => withReply .nothing (stepWith rnd s)
  | .tick => if s.isLoaded then .next (s.tick, .sound s.tick.sound) else .refused .notLoaded
  | .setKey k b => .next (s.setKey k b, .nothing)
  | .setConfig c => .next (s.setConfig c, .nothing)
  | .readDisp => .next (s, .disp s.disp)
  | .readSound => .next (s, .sound s.sound)
  | .readStatus => .next (s, .status s.status)

/-! ## Schedules -/

/-- A run: the operations of a host's schedule one after another, with what each returned (70_reset_and_hazards.md
R219); it stops where one is refused. -/
def performAll : List HostOp → State → Host.Outcome (State × List Reply) Fault Refusal
  | [], s => .next (s, [])
  | o :: os, s =>
    match perform o s with
    | .next (t, r) =>
      match performAll os t with
      | .next (u, rs) => .next (u, r :: rs)
      | .fault f => .fault f
      | .refused e => .refused e
    | .fault f => .fault f
    | .refused e => .refused e

/-- One display frame: `CYCLES_PER_FRAME` Steps, one for each byte drawn, then one Tick (60_exceptions.md R191). The
spec leaves the number open (00_scope.md R10; log 20): it is the length of `draws`. -/
def frameSchedule (draws : List Byte) : List HostOp := draws.map HostOp.step ++ [.tick]

/-- What the spec says of the state at power-on, and no more: not loaded, `CFG` 0, no fault recorded
(70_reset_and_hazards.md R217, 10_state.md R31; log 16). -/
def State.PowerOn (s : State) : Prop := s.status = 0 ∧ s.cfg = 0

end Sys2Proof.Machine
end

