-- ==== Sys2Proof/Safety.lean ====
section
/-! DEFINITION. What claims speak of: a core that runs, the invariants, what may change (frames), and states a program
cannot tell apart. -/

namespace Sys2Proof.Machine

/-! ## Running and the invariants -/

/-- The core executes: loaded and not faulted (30_encoding.md R60). A safe run stays in such states. -/
def State.Running (s : State) : Prop := s.isLoaded = true ∧ s.faulted = false

/-- The invariant: memory is in its canonical form; `STATUS` is legal (10_state.md R31: `CAUSE` is never 3, and it is 0
exactly while `FAULT` is 0); a fault is taken only by a loaded core; an overflow leaves the stack full and an underflow
leaves it empty (60_exceptions.md R180, R181). -/
structure Inv (s : State) : Prop where
  memWf          : Memory.wf s.mem = true
  causeLegal     : s.cause ≠ 3
  faultHasCause  : s.faulted = true ↔ s.cause ≠ 0
  faultIsLoaded  : s.faulted = true → s.isLoaded = true
  overflowFull   : s.cause = 1 → s.sp = 12
  underflowEmpty : s.cause = 2 → s.sp = 0

/-- Where the core is faulted, `PC` names the instruction that faulted: a `CALL` for an overflow, a `RET` for an
underflow (60_exceptions.md R180, R181, R183). -/
def FaultNamesInstruction (s : State) : Prop :=
  s.faulted = true →
    (s.cause = 1 → ∃ nnn, decode s.fetch = .instr (.call nnn)) ∧ (s.cause = 2 → decode s.fetch = .instr .ret)

/-! ## Frames -/

/-- The pieces of state a frame speaks of. -/
inductive Piece where
  | regs | index | pc | stack | delay | sound | disp | keys | mem | cfg | status | draws
deriving DecidableEq, Repr

/-- One piece is the same in both states; memory is compared byte by byte at every address, registers one by one. -/
def Unchanged (s t : State) : Piece → Prop
  | .regs => ∀ r, t.reg r = s.reg r
  | .index => t.i = s.i
  | .pc => t.pc = s.pc
  | .stack => t.sp = s.sp ∧ t.stack = s.stack
  | .delay => t.dt = s.dt
  | .sound => t.st = s.st
  | .disp => t.disp = s.disp
  | .keys => t.keys = s.keys
  | .mem => ∀ a, memRead t.mem a = memRead s.mem a
  | .cfg => t.cfg = s.cfg
  | .status => t.status = s.status
  | .draws => t.rndIn = s.rndIn ∧ t.draws = s.draws

/-- Every piece but the listed ones is the same. -/
def SameExcept (ps : List Piece) (s t : State) : Prop := ∀ p, p ∉ ps → Unchanged s t p

/-- The instruction completes, writes `value` to register `x`, and changes nothing else. -/
def CompletesWriting (i : Instr) (s : State) (x : Nibble) (value : Byte) : Prop :=
  ∃ t, exec i s = .next t ∧ t.reg x = value ∧ (∀ r, r ≠ x → t.reg r = s.reg r) ∧ SameExcept [.regs] s t

/-- The instruction completes, leaves a value satisfying `result` in register `x` and, where `x` is not `VF`, the flag 1
or 0 in `VF`, and changes nothing else (41_register_alu.md R113). -/
def CompletesFlagged (i : Instr) (s : State) (x : Nibble) (result : Byte → Prop) (flag : Prop) : Prop :=
  ∃ t, exec i s = .next t ∧ result (t.reg x)
    ∧ (x ≠ vf → (flag → t.reg vf = 1) ∧ (¬ flag → t.reg vf = 0))
    ∧ (∀ r, r ≠ x → r ≠ vf → t.reg r = s.reg r) ∧ SameExcept [.regs] s t

/-- The instruction completes with two added to the advanced `PC` exactly where `c` holds, and changes nothing else. -/
def CompletesSkipping (i : Instr) (s : State) (c : Prop) : Prop :=
  ∃ t, exec i s = .next t ∧ (c → t.pc = s.pc + 2) ∧ (¬ c → t.pc = s.pc) ∧ SameExcept [.pc] s t

/-- A Step that runs the skip `i` leaves `PC = pc_insn + 4` where `c` holds and `pc_insn + 2` elsewhere, and changes
nothing else (40_control_flow.md R98). -/
def StepSkipsWhen (i : Instr) (c : State → Prop) : Prop :=
  ∀ s : State, s.Running → decode s.fetch = .instr i →
    (c s → step s = .next { s with pc := s.pc + 4 }) ∧ (¬ c s → step s = .next { s with pc := s.pc + 2 })

/-! ## What each instruction may write, from the spec's state rules -/

/-- The pieces an instruction may write: 10_state.md R22, R24, R25, R27 to R32; 20_memory.md R43. -/
def touches : Instr → List Piece
  | .cls => [.disp]
  | .drw _ _ _ => [.disp, .regs]
  | .ret | .call _ => [.pc, .stack, .status]
  | .jp _ | .jpV0 _ | .seImm _ _ | .sneImm _ _ | .seReg _ _ | .sneReg _ _ | .skp _ | .sknp _ => [.pc]
  | .ldImm _ _ | .addImm _ _ | .ldReg _ _ | .orReg _ _ | .andReg _ _ | .xorReg _ _ | .addReg _ _ | .subReg _ _
  | .shr _ _ | .subnReg _ _ | .shl _ _ | .ldVxDt _ => [.regs]
  | .rnd _ _ => [.regs, .draws]
  | .ldVxK _ => [.regs, .pc]
  | .ldI _ | .addI _ | .ldF _ => [.index]
  | .ldDtVx _ => [.delay]
  | .ldStVx _ => [.sound]
  | .ldB _ => [.mem]
  | .stRegs _ => [.mem, .index]
  | .ldRegs _ => [.regs, .index]

/-- The registers an instruction may write: its destination (10_state.md R22), `VF` for those that write it implicitly
(R21), and `V[0]`..`V[x]` for `LD Vx, [I]`. -/
def mayWriteReg (r : Nibble) : Instr → Prop
  | .ldImm x _ | .addImm x _ | .ldReg x _ | .orReg x _ | .andReg x _ | .xorReg x _ | .rnd x _ | .ldVxDt x | .ldVxK x => r = x
  | .addReg x _ | .subReg x _ | .shr x _ | .subnReg x _ | .shl x _ => r = x ∨ r = vf
  | .drw _ _ _ => r = vf
  | .ldRegs x => r.toNat ≤ x.toNat
  | .cls | .ret | .jp _ | .call _ | .seImm _ _ | .sneImm _ _ | .seReg _ _ | .sneReg _ _ | .ldI _ | .jpV0 _ | .skp _
  | .sknp _ | .ldDtVx _ | .ldStVx _ | .addI _ | .ldF _ | .ldB _ | .stRegs _ => False

/-- How many bytes an instruction stores, from logical address `I` upwards (20_memory.md R43). -/
def storedBytes : Instr → Nat
  | .ldB _ => 3
  | .stRegs x => x.toNat + 1
  | .cls | .ret | .jp _ | .call _ | .seImm _ _ | .sneImm _ _ | .seReg _ _ | .ldImm _ _ | .addImm _ _ | .ldReg _ _
  | .orReg _ _ | .andReg _ _ | .xorReg _ _ | .addReg _ _ | .subReg _ _ | .shr _ _ | .subnReg _ _ | .shl _ _
  | .sneReg _ _ | .ldI _ | .jpV0 _ | .rnd _ _ | .drw _ _ _ | .skp _ | .sknp _ | .ldVxDt _ | .ldVxK _ | .ldDtVx _
  | .ldStVx _ | .addI _ | .ldF _ | .ldRegs _ => 0

/-! ## Sprites -/

/-- A sprite drawn from `(x0, y0)` with `n` rows covers display position `(px, py)` with an on bit: inside the sprite's
rectangle, the bit of row `py - y0` and column `px - x0`, most significant leftmost (43_display_input_timer.md R161). -/
def SpriteBitOn (s : State) (x0 y0 n py px : Nat) : Prop :=
  y0 ≤ py ∧ py < y0 + n ∧ x0 ≤ px ∧ px < x0 + 8 ∧ (memRead s.mem (s.i.toNat + (py - y0))).getLsbD (7 - (px - x0)) = true

/-! ## States a program cannot tell apart -/

/-- Two outcomes agree up to `R` on their next states. -/
def OutcomesRelated (R : State → State → Prop) :
    Host.Outcome State Fault Refusal → Host.Outcome State Fault Refusal → Prop
  | .next s, .next t => R s t
  | .refused e, .refused e' => e = e'
  | .fault f, .fault f' => f = f'
  | .next _, .fault _ | .next _, .refused _ | .fault _, .next _ | .fault _, .refused _ | .refused _, .next _
  | .refused _, .fault _ => False

/-- The states differ at most in the bits of `I`, `PC` and the stack entries the address generator drops
(20_memory.md R44, 42_index_memory.md R146). -/
def SameUpToAddressWrap (s t : State) : Prop :=
  t = { s with i := t.i, pc := t.pc, stack := t.stack }
    ∧ t.i.toNat % Config.memSize = s.i.toNat % Config.memSize
    ∧ t.pc.toNat % Config.memSize = s.pc.toNat % Config.memSize
    ∧ ∀ k (h : k < 12), t.stack[k].toNat % Config.memSize = s.stack[k].toNat % Config.memSize

/-- The outcome with one more change made to its next state. -/
def mapNext (f : State → State) : Host.Outcome State Fault Refusal → Host.Outcome State Fault Refusal
  | .next s => .next (f s)
  | .fault e => .fault e
  | .refused e => .refused e

end Sys2Proof.Machine
end

