-- ==== Sys2Proof/WellFormed.lean ====
section
/-! DEFINITION. What is checked before use. Operands are typed by their field widths, so an instruction term needs no
check; what can be ill-formed is an opcode no row selects, a row table that does not decide, and a program image that
does not fit. -/

namespace Sys2Proof

/-- Every instruction term is well-formed: all 16 values of a register selector and every value of every immediate are
legal (30_encoding.md R67, R68). -/
def Instr.wellFormed : Instr → Bool := fun _ => true

/-- An opcode some row of the opcode map selects: one outside the undefined space (30_encoding.md R74). -/
def Opcode.defined (op : Word) : Bool := rows.any (fun r => r.selects op)

/-- A row table reads unambiguously: no two rows can select one opcode, for they differ in a bit both of them test
(30_encoding.md R69: the rows are disjoint). -/
def Row.disjoint (r r' : Row) : Bool := r.pattern &&& (r.mask &&& r'.mask) != r'.pattern &&& (r.mask &&& r'.mask)

/-- A row's pattern has no bit outside its mask. -/
def Row.wellFormed (r : Row) : Bool := r.pattern &&& r.mask == r.pattern

/-- A program image fits between the entry point and the end of memory (70_reset_and_hazards.md R210). -/
def Image.fits (image : List Byte) : Bool := image.length ≤ Config.maxImage

end Sys2Proof
end

