-- ==== Sys2Proof/Certificates/Slice0/Obligations.lean ====
section
/-! DEFINITION. The statements for the provers. Each docstring names the rules of spec/ it rests on; where a clause is a
decision or supply the spec marks as its own, it says so and names the log entry. -/

open Sys2Proof Sys2Proof.Machine

/-! ## Encoding -/

/-- 30_encoding.md R65, R66, R69; 20_memory.md R46. Every operand at every value: the bytes of an encoded instruction,
whatever follows them, decode to it and are all consumed. The opcode numbers are the spec's supply (log 4). -/
def Obligations.EncodedBytesDecodeBack : Prop :=
  ∀ (i : Instr) (rest : List Byte), decodeBytes (opcodeBytes (encode i) ++ rest) = (.instr i, rest)

/-- The other direction: a word that decodes to an instruction is that instruction's word in every bit decoding looks
at; only the bits 30_encoding.md R70 and R73 ignore may differ (log 5, log 25). The numbers are the spec's supply
(log 4). -/
def Obligations.DecodedWordEncodesBack : Prop :=
  ∀ (op : Word) (i : Instr), decode op = .instr i → encode i &&& usedBits i = op &&& usedBits i ∧ encode i &&& ~~~usedBits i = 0

/-- 30_encoding.md R69, R79: dispatch by group and sub-selector (R63) is the first row of the opcode map that
`op & mask = match` selects, and at most one row selects an opcode. The numbers are the spec's supply (log 4). -/
def Obligations.DecodeFollowsOpcodeMap : Prop :=
  (∀ op : Word, decode op =
    match rows.find? (fun r => r.selects op) with
    | some r => .instr (r.build (fields op))
    | none => .rejected (.dispatchMiss op))
  ∧ ∀ (op : Word) (r r' : Row), r ∈ rows → r' ∈ rows → r.selects op = true → r'.selects op = true → r.mnemonic = r'.mnemonic

/-- 30_encoding.md R74: the undefined space is exactly the listed opcodes (derived there from the map; log 4, log 5). -/
def Obligations.UndefinedOpcodesAreExactlyTheListed : Prop :=
  ∀ op : Word, decode op = .rejected (.dispatchMiss op) ↔
    ((op.extractLsb' 12 4 = 0x0 ∧ op.extractLsb' 0 8 ≠ 0xE0#8 ∧ op.extractLsb' 0 8 ≠ 0xEE#8)
      ∨ (op.extractLsb' 12 4 = 0x8
          ∧ ((0x8 ≤ (op.extractLsb' 0 4).toNat ∧ (op.extractLsb' 0 4).toNat ≤ 0xD) ∨ op.extractLsb' 0 4 = 0xF#4))
      ∨ (op.extractLsb' 12 4 = 0xE ∧ op.extractLsb' 0 8 ∉ [0x9E#8, 0xA1#8])
      ∨ (op.extractLsb' 12 4 = 0xF
          ∧ op.extractLsb' 0 8 ∉ [0x07#8, 0x0A#8, 0x15#8, 0x18#8, 0x1E#8, 0x29#8, 0x33#8, 0x55#8, 0x65#8]))

/-- A few words written out from 30_encoding.md R66 and R69, and what they stand for. The opcode numbers and field
positions of all of them are the spec's supply from general knowledge (decisions D19, D20, log 4); that 0x03E0 is `CLS`
and 0x5121 is `SE V1, V2` is its decision D21 on ignored bits (R70, R73; log 5). -/
def Obligations.WrittenOutWordsDecode : Prop :=
  decode 0b0000_0011_1110_0000#16 = .instr .cls
  ∧ decode 0b0010_0010_0001_0000#16 = .instr (.call 0x210)
  ∧ decode 0b0101_0001_0010_0001#16 = .instr (.seReg 1 2)
  ∧ decode 0b1000_1111_0001_0101#16 = .instr (.subReg 15 1)
  ∧ decode 0b1101_0001_0010_0101#16 = .instr (.drw 1 2 5)
  ∧ decode 0b1111_0011_0101_0101#16 = .instr (.stRegs 3)
  ∧ decode 0b1000_0000_0000_1000#16 = .rejected (.dispatchMiss 0x8008)

/-- 30_encoding.md R77, R78 (the spec's decision D26, log 28): every word can be written as one line of assembly, an
instruction or `DW`; what that line assembles to decodes as the word does, and to the word itself where it is `DW`; a
shift written without `Vy` assembles to an opcode that decodes with `y = 0`. -/
def Obligations.WordsCanBeWrittenAndAssembled : Prop :=
  (∀ (op : Word) (rest : List Byte),
    (∀ i, decode op = .instr i →
      disassemble op = .instr i ∧ decodeBytes (assemble [disassemble op] ++ rest) = (.instr i, rest))
    ∧ (∀ r, decode op = .rejected r → disassemble op = .dw op ∧ assemble [disassemble op] = opcodeBytes op))
  ∧ ∀ x : Nibble, decodeBytes (assemble [.shrShort x, .shlShort x]) = (.instr (.shr x 0), assemble [.shlShort x])
      ∧ decodeBytes (assemble [.shlShort x]) = (.instr (.shl x 0), [])

/-! ## The step -/

/-- 30_encoding.md R61: two bytes at `PC` and `PC + 1`, the first the high byte; `PC` advances by 2 before the
instruction executes. -/
def Obligations.StepRunsDecodedInstruction : Prop :=
  ∀ (s : State) (i : Instr), s.Running →
    decode (memRead s.mem s.pc.toNat ++ memRead s.mem (s.pc.toNat + 1)) = .instr i →
    step s = exec i { s with pc := s.pc + 2 }

/-- 30_encoding.md R64: an opcode that selects no behaviour has only the fetch's effect, and raises nothing. -/
def Obligations.DispatchMissIsNoop : Prop :=
  ∀ (s : State) (r : Reject), s.Running →
    decode (memRead s.mem s.pc.toNat ++ memRead s.mem (s.pc.toNat + 1)) = .rejected r →
    step s = .next { s with pc := s.pc + 2 }

/-- 30_encoding.md R60, 60_exceptions.md R184: nothing a program does stops the machine; a step is refused exactly
before the first Load (the spec's decision D17, log 16). -/
def Obligations.StepStopsExactlyBeforeLoad : Prop :=
  ∀ s : State, (s.isLoaded = false → step s = .refused .notLoaded) ∧ (s.isLoaded = true → ∃ t, step s = .next t)

/-- 60_exceptions.md R182 (the spec's decisions D4 and D30, log 18, log 21): in a faulted core a Step changes nothing,
a Tick still counts, a key still changes, every output can be read, and of all host operations only a successful Load
clears the fault. -/
def Obligations.FaultedCoreStaysHalted : Prop :=
  ∀ s : State, s.isLoaded = true → s.faulted = true →
    step s = .next s
    ∧ (∃ t r, perform .tick s = .next (t, r) ∧ t.dt.toNat = s.dt.toNat - 1 ∧ t.st.toNat = s.st.toNat - 1)
    ∧ (∀ k b, ∃ t r, perform (.setKey k b) s = .next (t, r) ∧ t.key k = b)
    ∧ (perform .readDisp s = .next (s, .disp s.disp) ∧ perform .readSound s = .next (s, .sound (decide (s.st ≠ 0)))
      ∧ perform .readStatus s = .next (s, .status s.status))
    ∧ (∀ o t r, perform o s = .next (t, r) → (t.faulted = false ↔ ∃ image, o = .load image ∧ image.length ≤ 3584))

/-! ## Invariants -/

/-- Every step keeps the invariant: canonical memory and a legal `STATUS` (10_state.md R31; 60_exceptions.md R180, R181,
R183). -/
def Obligations.StepKeepsInvariant : Prop := ∀ s t : State, Inv s → step s = .next t → Inv t

/-- Every host operation keeps it too, a Load with any image included. -/
def Obligations.HostOperationsKeepInvariant : Prop :=
  ∀ (o : HostOp) (s t : State) (r : Reply), Inv s → perform o s = .next (t, r) → Inv t

/-- The state after reset meets it. -/
def Obligations.ResetMeetsInvariant : Prop := Inv State.reset

/-- 60_exceptions.md R180, R181, R183: whatever the host does, the `PC` of a faulted core names the `CALL` or `RET` that
faulted (the spec's decisions D2 to D4, log 18). -/
def Obligations.FaultAddressNamesCallOrRet : Prop :=
  (∀ s t : State, FaultNamesInstruction s → step s = .next t → FaultNamesInstruction t)
  ∧ (∀ (o : HostOp) (s t : State) (r : Reply),
      FaultNamesInstruction s → perform o s = .next (t, r) → FaultNamesInstruction t)
  ∧ FaultNamesInstruction State.reset

/-! ## Control transfer -/

/-- 40_control_flow.md R91, R97: a jump sets `PC`, unreduced (decision D6, log 7), and changes nothing else. -/
def Obligations.JumpsSetPc : Prop :=
  ∀ (nnn : Imm12) (s : State),
    (∃ t, exec (.jp nnn) s = .next t ∧ t.pc.toNat = nnn.toNat ∧ SameExcept [.pc] s t)
    ∧ (∃ t, exec (.jpV0 nnn) s = .next t ∧ t.pc.toNat = nnn.toNat + (s.reg 0).toNat ∧ SameExcept [.pc] s t)

/-- 40_control_flow.md R92: with room on the stack, the advanced `PC` goes to the entry at `SP`. -/
def Obligations.CallPushesReturnAddress : Prop :=
  ∀ (nnn : Imm12) (s : State), s.sp.val < 12 →
    ∃ t, exec (.call nnn) s = .next t ∧ t.pc.toNat = nnn.toNat ∧ t.sp.val = s.sp.val + 1
      ∧ (∀ k (h : k < 12), t.stack[k] = if k = s.sp.val then s.pc else s.stack[k])
      ∧ SameExcept [.pc, .stack] s t

/-- 60_exceptions.md R180, R183 (decisions D2, D4, log 18): with all 12 entries in use `CALL` takes the fault: `PC` back
at the `CALL`, `FAULT` 1, `CAUSE` 1, nothing else. -/
def Obligations.CallOnFullStackFaults : Prop :=
  ∀ (nnn : Imm12) (s : State), s.sp.val = 12 →
    ∃ t, exec (.call nnn) s = .next t ∧ t.pc = s.pc - 2
      ∧ t.status.getLsbD 0 = true ∧ t.status.extractLsb' 1 2 = 1#2 ∧ t.status.getLsbD 3 = s.status.getLsbD 3
      ∧ SameExcept [.pc, .status] s t

/-- 40_control_flow.md R90: with an entry in use, `RET` takes the most recent one, unreduced, and leaves it in place
(decision D24, log 17). -/
def Obligations.ReturnPopsAddress : Prop :=
  ∀ s : State, 0 < s.sp.val →
    ∃ t, exec .ret s = .next t ∧ (∀ k (h : k < 12), k + 1 = s.sp.val → t.pc = s.stack[k]) ∧ t.sp.val + 1 = s.sp.val
      ∧ t.stack = s.stack ∧ SameExcept [.pc, .stack] s t

/-- 60_exceptions.md R181, R183 (decisions D3, D4, log 18): on an empty stack `RET` takes the fault: `PC` back at the
`RET`, `FAULT` 1, `CAUSE` 2, nothing else. -/
def Obligations.ReturnOnEmptyStackFaults : Prop :=
  ∀ s : State, s.sp.val = 0 →
    ∃ t, exec .ret s = .next t ∧ t.pc = s.pc - 2
      ∧ t.status.getLsbD 0 = true ∧ t.status.extractLsb' 1 2 = 2#2 ∧ t.status.getLsbD 3 = s.status.getLsbD 3
      ∧ SameExcept [.pc, .status] s t

/-- 40_control_flow.md R90, R92, R100: a Step of a `CALL`, then any work that leaves the stack as it is, then a Step of
a `RET`: execution goes on after the `CALL`, with the stack cursor as before it. -/
def Obligations.CallThenReturnResumes : Prop :=
  ∀ (nnn : Imm12) (s t u : State), s.Running → s.sp.val < 12 → decode s.fetch = .instr (.call nnn) → step s = .next t →
    u.Running → u.sp = t.sp → u.stack = t.stack → decode u.fetch = .instr .ret →
    ∃ w, step u = .next w ∧ w.pc = s.pc + 2 ∧ w.sp = s.sp ∧ SameExcept [.pc, .stack] u w

/-- 40_control_flow.md R98: at the level of Steps, all six skips, taken and not taken. -/
def Obligations.SkipsAddTwoMore : Prop :=
  (∀ x nn, StepSkipsWhen (.seImm x nn) (fun s => s.reg x = nn))
  ∧ (∀ x nn, StepSkipsWhen (.sneImm x nn) (fun s => s.reg x ≠ nn))
  ∧ (∀ x y, StepSkipsWhen (.seReg x y) (fun s => s.reg x = s.reg y))
  ∧ (∀ x y, StepSkipsWhen (.sneReg x y) (fun s => s.reg x ≠ s.reg y))
  ∧ (∀ x, StepSkipsWhen (.skp x) (fun s => s.key ((s.reg x).extractLsb' 0 4) = true))
  ∧ (∀ x, StepSkipsWhen (.sknp x) (fun s => s.key ((s.reg x).extractLsb' 0 4) = false))

/-- 40_control_flow.md R93 to R96, 43_display_input_timer.md R162, R163: each skip completes in every state. -/
def Obligations.SkipsComplete : Prop :=
  ∀ (s : State) (x y : Nibble) (nn : Byte),
    CompletesSkipping (.seImm x nn) s (s.reg x = nn)
    ∧ CompletesSkipping (.sneImm x nn) s (s.reg x ≠ nn)
    ∧ CompletesSkipping (.seReg x y) s (s.reg x = s.reg y)
    ∧ CompletesSkipping (.sneReg x y) s (s.reg x ≠ s.reg y)
    ∧ CompletesSkipping (.skp x) s (s.key (BitVec.ofNat 4 ((s.reg x).toNat % 16)) = true)
    ∧ CompletesSkipping (.sknp x) s (s.key (BitVec.ofNat 4 ((s.reg x).toNat % 16)) = false)

/-! ## Register loads and the ALU -/

/-- 41_register_alu.md R110, R111: the sum wraps modulo 256 and no flag is written. -/
def Obligations.ImmediateLoadAndAdd : Prop :=
  ∀ (s : State) (x : Nibble) (nn : Byte),
    CompletesWriting (.ldImm x nn) s x nn
    ∧ CompletesWriting (.addImm x nn) s x (BitVec.ofNat 8 (((s.reg x).toNat + nn.toNat) % 256))

/-- 41_register_alu.md R114 (the spec's supply, log 4), R115, R116, R117, bit by bit: no flag is written. -/
def Obligations.CopyAndLogic : Prop :=
  ∀ (s : State) (x y : Nibble),
    CompletesWriting (.ldReg x y) s x (s.reg y)
    ∧ (∃ w, CompletesWriting (.orReg x y) s x w ∧ ∀ k, w.getLsbD k = ((s.reg x).getLsbD k || (s.reg y).getLsbD k))
    ∧ (∃ w, CompletesWriting (.andReg x y) s x w ∧ ∀ k, w.getLsbD k = ((s.reg x).getLsbD k && (s.reg y).getLsbD k))
    ∧ (∃ w, CompletesWriting (.xorReg x y) s x w ∧ ∀ k, w.getLsbD k = ((s.reg x).getLsbD k ^^ (s.reg y).getLsbD k))

/-- 41_register_alu.md R118 with the flag order of R113: `VF` holds the carry, but the sum where `VF` is the
destination; both come from the values before the instruction. -/
def Obligations.AddCarriesIntoVf : Prop :=
  ∀ (s : State) (x y : Nibble),
    CompletesFlagged (.addReg x y) s x (fun w => w.toNat = ((s.reg x).toNat + (s.reg y).toNat) % 256)
      ((s.reg x).toNat + (s.reg y).toNat > 255)

/-- 41_register_alu.md R119, R121 with the flag order of R113: the flag is 1 when no borrow occurs; at equal operands
that is the spec's decision D7 (log 8). -/
def Obligations.SubtractionsFlagNoBorrow : Prop :=
  ∀ (s : State) (x y : Nibble),
    CompletesFlagged (.subReg x y) s x (fun w => w.toNat = ((s.reg x).toNat + 256 - (s.reg y).toNat) % 256)
      ((s.reg x).toNat ≥ (s.reg y).toNat)
    ∧ CompletesFlagged (.subnReg x y) s x (fun w => w.toNat = ((s.reg y).toNat + 256 - (s.reg x).toNat) % 256)
      ((s.reg y).toNat ≥ (s.reg x).toNat)

/-- 41_register_alu.md R120, R122, R123 with the flag order of R113: the source is `V[y]` under `CFG` bit 0, else
`V[x]`. That a switch in `CFG` selects it, and in bit 0, is the spec's own choice (10_state.md R30, decisions D10 and
D12, log 11); so is the flag, the bit shifted out (its supply, decision D8, log 9). -/
def Obligations.ShiftsMoveOneBitOut : Prop :=
  ∀ (s : State) (x y : Nibble) (v : Byte), v = (if s.cfg.getLsbD 0 then s.reg y else s.reg x) →
    CompletesFlagged (.shr x y) s x (fun w => w.toNat = v.toNat / 2) (v.toNat % 2 = 1)
    ∧ CompletesFlagged (.shl x y) s x (fun w => w.toNat = v.toNat * 2 % 256) (v.toNat ≥ 128)

/-- 41_register_alu.md R124 (the free byte: log 2): `RND` draws a byte afresh and masks it, whatever the byte; a Step
given the byte `rnd` by the host draws that one. -/
def Obligations.RndMasksTheDraw : Prop :=
  (∀ (s : State) (x : Nibble) (nn : Byte),
    ∃ t, exec (.rnd x nn) s = .next t ∧ t.reg x = s.rndDraw &&& nn ∧ (∀ r rest, s.rndIn = r :: rest → t.reg x = r &&& nn)
      ∧ (∀ r, r ≠ x → t.reg r = s.reg r) ∧ t.rndIn = s.rndIn.tail ∧ t.draws = s.draws + 1
      ∧ SameExcept [.regs, .draws] s t)
  ∧ (∀ (s : State) (x : Nibble) (nn rnd : Byte), s.Running → decode s.fetch = .instr (.rnd x nn) →
    ∃ t, perform (.step rnd) s = .next (t, .nothing) ∧ t.reg x = rnd &&& nn ∧ (∀ r, r ≠ x → t.reg r = s.reg r)
      ∧ t.pc = s.pc + 2 ∧ SameExcept [.regs, .pc, .draws] s t)

/-- 00_scope.md R10, 41_register_alu.md R124: no other instruction depends on what will be drawn (log 2). -/
def Obligations.DrawsAreSeenByRndOnly : Prop :=
  ∀ (i : Instr) (s : State) (l : List Byte) (n : Nat), (∀ x nn, i ≠ .rnd x nn) →
    exec i { s with rndIn := l, draws := n } = mapNext (fun t => { t with rndIn := l, draws := n }) (exec i s)

/-! ## Index register and memory -/

/-- 42_index_memory.md R140, R141, R142: a 16-bit wrap and no flag for `ADD I` (decision D9, log 10), the low nibble for
`LD F` (decision D13, log 12). -/
def Obligations.IndexRegisterForms : Prop :=
  ∀ (s : State) (x : Nibble) (nnn : Imm12),
    (∃ t, exec (.ldI nnn) s = .next t ∧ t.i.toNat = nnn.toNat ∧ SameExcept [.index] s t)
    ∧ (∃ t, exec (.addI x) s = .next t ∧ t.i.toNat = (s.i.toNat + (s.reg x).toNat) % 65536 ∧ SameExcept [.index] s t)
    ∧ (∃ t, exec (.ldF x) s = .next t ∧ t.i.toNat = 5 * ((s.reg x).toNat % 16) ∧ SameExcept [.index] s t)

/-- 42_index_memory.md R143; addresses wrap modulo 4096 (decision D5, log 6). -/
def Obligations.BcdDigitsStored : Prop :=
  ∀ (s : State) (x : Nibble), Memory.wf s.mem = true →
    ∃ t, exec (.ldB x) s = .next t
      ∧ (memRead t.mem (s.i.toNat)).toNat = (s.reg x).toNat / 100
      ∧ (memRead t.mem (s.i.toNat + 1)).toNat = (s.reg x).toNat / 10 % 10
      ∧ (memRead t.mem (s.i.toNat + 2)).toNat = (s.reg x).toNat % 10
      ∧ (∀ a, (∀ k < 3, (s.i.toNat + k) % 4096 ≠ a % 4096) → memRead t.mem a = memRead s.mem a)
      ∧ SameExcept [.mem] s t

/-- 42_index_memory.md R144, R147: `V[0]`..`V[x]` at `I` upwards, wrapping (decision D5, log 6); `I` moves by `x + 1`
only under `CFG` bit 1 (decision D11, log 11). -/
def Obligations.RegisterDumpStores : Prop :=
  ∀ (s : State) (x : Nibble), Memory.wf s.mem = true →
    ∃ t, exec (.stRegs x) s = .next t
      ∧ (∀ r : Nibble, r.toNat ≤ x.toNat → memRead t.mem (s.i.toNat + r.toNat) = s.reg r)
      ∧ (∀ a, (∀ k ≤ x.toNat, (s.i.toNat + k) % 4096 ≠ a % 4096) → memRead t.mem a = memRead s.mem a)
      ∧ t.i.toNat = (if s.cfg.getLsbD 1 then (s.i.toNat + x.toNat + 1) % 65536 else s.i.toNat)
      ∧ SameExcept [.mem, .index] s t

/-- 42_index_memory.md R145, R147: the bytes at `I` upwards into `V[0]`..`V[x]`, every address from the value of `I` on
entry; `I` moves by `x + 1` only under `CFG` bit 1 (decision D11, log 11). -/
def Obligations.RegisterLoadReads : Prop :=
  ∀ (s : State) (x : Nibble),
    ∃ t, exec (.ldRegs x) s = .next t
      ∧ (∀ r : Nibble, r.toNat ≤ x.toNat → t.reg r = memRead s.mem (s.i.toNat + r.toNat))
      ∧ (∀ r : Nibble, x.toNat < r.toNat → t.reg r = s.reg r)
      ∧ t.i.toNat = (if s.cfg.getLsbD 1 then (s.i.toNat + x.toNat + 1) % 65536 else s.i.toNat)
      ∧ SameExcept [.regs, .index] s t

/-- 42_index_memory.md R144, R145: a dump, then in any state with that memory and that index a load, gives the dumped
registers back. It holds for wrapping addresses too, which is the spec's decision D5 on the address generator
(20_memory.md R44, 42_index_memory.md R146; log 6). -/
def Obligations.DumpThenLoadGivesRegistersBack : Prop :=
  ∀ (s : State) (x : Nibble), Memory.wf s.mem = true →
    ∃ t, exec (.stRegs x) s = .next t
      ∧ ∀ t' : State, t'.mem = t.mem → t'.i = s.i →
        ∃ u, exec (.ldRegs x) t' = .next u ∧ ∀ r : Nibble, r.toNat ≤ x.toNat → u.reg r = s.reg r

/-- 20_memory.md R57, 70_reset_and_hazards.md R222: two registers a dump stored are the opcode the next fetch at their
address reads, with nothing in between; addresses wrap modulo 4096 (decision D5, log 6). -/
def Obligations.StoreIsSeenByFetch : Prop :=
  ∀ (s t : State) (x : Nibble) (p : Word) (k : Nat), Memory.wf s.mem = true → exec (.stRegs x) s = .next t →
    k < x.toNat → p.toNat % 4096 = (s.i.toNat + k) % 4096 →
    State.fetch { t with pc := p } = s.reg (BitVec.ofNat 4 k) ++ s.reg (BitVec.ofNat 4 (k + 1))

/-- 42_index_memory.md R146 (for `I`), with decisions D5 and D6 for `PC` and return addresses (log 6, log 7): a program
cannot tell the 16-bit registers from ones reduced modulo 4096. States that differ only there step to states that
differ only there. -/
def Obligations.AddressHighBitsAreInvisible : Prop :=
  ∀ s t : State, SameUpToAddressWrap s t → OutcomesRelated SameUpToAddressWrap (step s) (step t)

/-! ## Display, input, timers -/

/-- 43_display_input_timer.md R160: all 2048 pixels false, nothing else changed. -/
def Obligations.ClearTurnsEveryPixelOff : Prop :=
  ∀ s : State, ∃ t, exec .cls s = .next t ∧ (∀ y x, y < 32 → x < 64 → pixelAt t.disp y x = false) ∧ SameExcept [.disp] s t

/-- 43_display_input_timer.md R168 (and the pseudocode of R161): only the origin wraps; a pixel of the buffer is turned
over exactly where the sprite has an on bit, and what lies past an edge is neither drawn nor compared; `VF` is 1 exactly
when an on bit met an on pixel; coordinates are those before the instruction. Sprite bytes past the
end of memory wrap (the spec's decision D5, log 6). -/
def Obligations.DrawTurnsSpriteBitsOver : Prop :=
  ∀ (s : State) (x y n : Nibble) (x0 y0 : Nat), x0 = (s.reg x).toNat % 64 → y0 = (s.reg y).toNat % 32 →
    ∃ t, exec (.drw x y n) s = .next t
      ∧ (∀ py px, py < 32 → px < 64 →
          (pixelAt t.disp py px = true ↔ (pixelAt s.disp py px = true ↔ ¬ SpriteBitOn s x0 y0 n.toNat py px)))
      ∧ ((∃ py px, py < 32 ∧ px < 64 ∧ SpriteBitOn s x0 y0 n.toNat py px ∧ pixelAt s.disp py px = true) → t.reg vf = 1)
      ∧ ((¬ ∃ py px, py < 32 ∧ px < 64 ∧ SpriteBitOn s x0 y0 n.toNat py px ∧ pixelAt s.disp py px = true) → t.reg vf = 0)
      ∧ (∀ r, r ≠ vf → t.reg r = s.reg r) ∧ SameExcept [.regs, .disp] s t

/-- 43_display_input_timer.md R161, 95_test_vectors.md W7: drawing the same sprite again restores every pixel, and then
it collides exactly if it covers an on pixel of the display it found. -/
def Obligations.DrawTwiceRestoresDisplay : Prop :=
  ∀ (s : State) (x y n : Nibble), x ≠ vf → y ≠ vf →
    ∃ t u, exec (.drw x y n) s = .next t ∧ exec (.drw x y n) t = .next u ∧ u.disp = s.disp
      ∧ (u.reg vf = 1 ↔ ∃ py px, py < 32 ∧ px < 64
          ∧ SpriteBitOn s ((s.reg x).toNat % 64) ((s.reg y).toNat % 32) n.toNat py px ∧ pixelAt s.disp py px = false)

/-- 43_display_input_timer.md R167: the lowest pressed key is written; with none pressed only the fetch's advance is
undone. -/
def Obligations.KeyWaitTakesLowestKey : Prop :=
  ∀ (s : State) (x : Nibble),
    (∀ k : Nibble, s.key k = true → (∀ j : Nibble, j.toNat < k.toNat → s.key j = false) →
      CompletesWriting (.ldVxK x) s x (BitVec.ofNat 8 k.toNat))
    ∧ ((∀ k, s.key k = false) → ∃ t, exec (.ldVxK x) s = .next t ∧ t.pc = s.pc - 2 ∧ SameExcept [.pc] s t)

/-- 43_display_input_timer.md R167, 40_control_flow.md R91, 70_reset_and_hazards.md R219: the two ways a program idles
leave the whole state as it was, so every further Step does too. -/
def Obligations.IdleStepsChangeNothing : Prop :=
  ∀ s : State, s.Running →
    (∀ x, decode s.fetch = .instr (.ldVxK x) → (∀ k, s.key k = false) → step s = .next s)
    ∧ (∀ nnn : Imm12, decode s.fetch = .instr (.jp nnn) → s.pc.toNat = nnn.toNat → step s = .next s)

/-- 43_display_input_timer.md R164, R165, R166. -/
def Obligations.TimerInstructionsMoveBytes : Prop :=
  ∀ (s : State) (x : Nibble),
    CompletesWriting (.ldVxDt x) s x s.dt
    ∧ (∃ t, exec (.ldDtVx x) s = .next t ∧ t.dt = s.reg x ∧ SameExcept [.delay] s t)
    ∧ (∃ t, exec (.ldStVx x) s = .next t ∧ t.st = s.reg x ∧ SameExcept [.sound] s t)

/-- 10_state.md R29: who writes and who reads the timers, the Tick's decrement, and their reset value. An instruction's
outcome with another value in a timer it does not read is the same outcome with that value kept, and where it writes
the timer, the very same outcome. -/
def Obligations.TimersObeyTheirWriters : Prop :=
  (∀ (i : Instr) (s t : State), exec i s = .next t →
      (∀ x, i = .ldDtVx x → t.dt = s.reg x) ∧ ((∀ x, i ≠ .ldDtVx x) → t.dt = s.dt)
      ∧ (∀ x, i = .ldStVx x → t.st = s.reg x) ∧ ((∀ x, i ≠ .ldStVx x) → t.st = s.st)
      ∧ (∀ x, i = .ldVxDt x → t.reg x = s.dt))
  ∧ (∀ (i : Instr) (s : State) (b : Byte), (∀ x, i ≠ .ldVxDt x) → (∀ x, i ≠ .ldDtVx x) →
      exec i { s with dt := b } = mapNext (fun t => { t with dt := b }) (exec i s))
  ∧ (∀ (x : Nibble) (s : State) (b : Byte), exec (.ldDtVx x) { s with dt := b } = exec (.ldDtVx x) s)
  ∧ (∀ (i : Instr) (s : State) (b : Byte), (∀ x, i ≠ .ldStVx x) →
      exec i { s with st := b } = mapNext (fun t => { t with st := b }) (exec i s))
  ∧ (∀ (x : Nibble) (s : State) (b : Byte), exec (.ldStVx x) { s with st := b } = exec (.ldStVx x) s)
  ∧ (∀ (o : HostOp) (s t : State) (r : Reply), perform o s = .next (t, r) →
      (o = .tick → t.dt.toNat = s.dt.toNat - 1 ∧ t.st.toNat = s.st.toNat - 1)
      ∧ (t.dt ≠ s.dt ∨ t.st ≠ s.st → o = .tick ∨ (∃ image, o = .load image) ∨ ∃ b, o = .step b))
  ∧ (State.reset.dt = 0 ∧ State.reset.st = 0 ∧ ∀ (image : List Byte) (s t : State), load image s = .ok t → t.dt = 0 ∧ t.st = 0)

/-! ## The host's operations -/

/-- 60_exceptions.md R190, in a loaded core (R191): both timers one less, not below zero; the answer is whether the sound
timer is still positive; nothing else changes. -/
def Obligations.TickCountsDownToZero : Prop :=
  ∀ s : State, s.isLoaded = true →
    ∃ t, perform .tick s = .next (t, .sound (decide (0 < t.st.toNat)))
      ∧ t.dt.toNat = s.dt.toNat - 1 ∧ t.st.toNat = s.st.toNat - 1 ∧ SameExcept [.delay, .sound] s t

/-- 60_exceptions.md R194: one key is written and nothing else. -/
def Obligations.SetKeyWritesOneKey : Prop :=
  ∀ (s : State) (k : Nibble) (b : Bool),
    ∃ t, perform (.setKey k b) s = .next (t, .nothing) ∧ t.key k = b ∧ (∀ j, j ≠ k → t.key j = s.key j)
      ∧ SameExcept [.keys] s t

/-- 60_exceptions.md R192, R195, R196 (decisions D12, D27, D31; log 11, log 19, log 21): `CFG` is written whole; reading
the outputs changes nothing. -/
def Obligations.ConfigWriteAndOutputReads : Prop :=
  ∀ s : State,
    (∀ c, ∃ t, perform (.setConfig c) s = .next (t, .nothing) ∧ t.cfg = c ∧ SameExcept [.cfg] s t)
    ∧ perform .readDisp s = .next (s, .disp s.disp)
    ∧ perform .readSound s = .next (s, .sound (decide (s.st.toNat ≠ 0)))
    ∧ perform .readStatus s = .next (s, .status s.status)

/-- 70_reset_and_hazards.md R211, 10_state.md R37, for every font table (decisions D4, D12, D15, D24; log 3, log 11,
log 14, log 17): everything a Load that fits leaves. -/
def Obligations.LoadLeavesResetState : Prop :=
  ∀ (fontTable image : List Byte) (s : State), fontTable.length = 80 → image.length ≤ 3584 →
    ∃ t, loadWith fontTable image s = .ok t ∧ (fontTable = font → perform (.load image) s = .next (t, .ok))
      ∧ (∀ r, t.reg r = 0) ∧ t.i = 0 ∧ t.pc = 0x200 ∧ t.sp = 0 ∧ (∀ k (h : k < 12), t.stack[k] = 0)
      ∧ t.dt = 0 ∧ t.st = 0 ∧ (∀ y x, pixelAt t.disp y x = false) ∧ (∀ k, t.key k = false)
      ∧ (∀ a, a < 4096 → memRead t.mem a =
          if a < 80 then fontTable.getD a 0
          else if 0x200 ≤ a ∧ a < 0x200 + image.length then image.getD (a - 0x200) 0
          else 0)
      ∧ t.cfg = s.cfg ∧ t.status = 0b1000#4 ∧ t.rndIn = s.rndIn ∧ t.draws = s.draws

/-- 70_reset_and_hazards.md R210, R212 (decision D16, log 15): an image that does not fit changes nothing. -/
def Obligations.LoadTooLargeChangesNothing : Prop :=
  ∀ (image : List Byte) (s : State), 3584 < image.length → perform (.load image) s = .next (s, .loadError .tooLarge)

/-- 70_reset_and_hazards.md R214: what a Load leaves depends on the image and `CFG` only (and, in the model, on its two
own fields, log 2), so that loading again after any run gives the same state again. -/
def Obligations.LoadForgetsThePast : Prop :=
  (∀ (image : List Byte) (s s' : State), s.cfg = s'.cfg → s.rndIn = s'.rndIn → s.draws = s'.draws →
    load image s = load image s')
  ∧ (∀ (image : List Byte) (s t u : State), load image s = .ok t → u.cfg = t.cfg →
    load image u = .ok { t with rndIn := u.rndIn, draws := u.draws })

/-- 70_reset_and_hazards.md R213, R217 (log 1, log 16): the model's reset state is what loading the empty image leaves,
from any state the spec allows at power-on. -/
def Obligations.ResetIsEmptyLoadFromPowerOn : Prop :=
  ∀ s : State, s.PowerOn → load [] s = .ok { State.reset with rndIn := s.rndIn, draws := s.draws }

/-- 70_reset_and_hazards.md R217, 60_exceptions.md R191, R197 (decision D17, log 16): while `STATUS.LOADED = 0` nothing
runs, whatever the rest of the state holds, a `CFG` or a key the host has written included (R196, R218). -/
def Obligations.BeforeLoadNothingRuns : Prop :=
  ∀ s : State, s.isLoaded = false →
    step s = .refused .notLoaded ∧ (∀ rnd, perform (.step rnd) s = .refused .notLoaded)
    ∧ perform .tick s = .refused .notLoaded

/-! ## Frames of the whole instruction set -/

/-- 10_state.md R24, R25, R27 to R32, R34; 20_memory.md R43: an instruction writes only the pieces of state the spec
names for it; `CFG` and the keys none writes. -/
def Obligations.InstructionsTouchOnlyTheirPieces : Prop :=
  ∀ (i : Instr) (s t : State), exec i s = .next t → SameExcept (touches i) s t

/-- 10_state.md R21, R22: a register changes only under an instruction that names it as destination or writes `VF`
implicitly. -/
def Obligations.RegistersChangeOnlyByTheirWriters : Prop :=
  ∀ (i : Instr) (s t : State) (r : Nibble), exec i s = .next t → ¬ mayWriteReg r i → t.reg r = s.reg r

/-- 20_memory.md R43, R50: every byte outside the bytes the instruction stores reads as before; addresses wrap modulo
4096 (decision D5, log 6). -/
def Obligations.MemoryChangesOnlyWhereStored : Prop :=
  ∀ (i : Instr) (s t : State) (a : Nat), Memory.wf s.mem = true → exec i s = .next t →
    (∀ k < storedBytes i, effective (s.indexed k) ≠ effective a) → memRead t.mem a = memRead s.mem a

/-- 10_state.md R30 (`CFG` is the spec's decisions D10 to D12, log 11): it matters to the two shifts and to the register
dump and load alone. -/
def Obligations.ConfigIsSeenByFourInstructions : Prop :=
  ∀ (i : Instr) (s : State) (c : BitVec 2),
    (∀ x y, i ≠ .shr x y) → (∀ x y, i ≠ .shl x y) → (∀ x, i ≠ .stRegs x) → (∀ x, i ≠ .ldRegs x) →
    exec i { s with cfg := c } = mapNext (fun t => { t with cfg := c }) (exec i s)
end

