-- ==== Sys2Proof/Laws/Decode.lean ====
section
/-! SUPPORT. The fields of the three formats, bytes and opcodes, and opcodes told apart by their fields. -/

namespace Sys2Proof

/-! ## Bytes -/

/-- An opcode is its two bytes, high byte first (20_memory.md R46). -/
@[simp] theorem opcodeOf_extract (op : Word) : opcodeOf (op.extractLsb' 8 8) (op.extractLsb' 0 8) = op := by
  apply BitVec.eq_of_toNat_eq
  simp only [opcodeOf, BitVec.toNat_append, BitVec.extractLsb'_toNat]
  rw [← Nat.shiftLeft_add_eq_or_of_lt (by omega)]
  simp only [Nat.shiftLeft_eq, Nat.shiftRight_eq_div_pow]
  omega

/-- Decoding an opcode's bytes is decoding the opcode; the bytes after it are left. -/
theorem decodeBytes_opcodeBytes (op : Word) (rest : List Byte) :
    decodeBytes (opcodeBytes op ++ rest) = (decode op, rest) := by
  simp [opcodeBytes, decodeBytes]

/-! ## The decoder's two answers -/

theorem decode_eq_instr {op : Word} {i : Instr} : decode op = .instr i ↔ dispatch (fields op) = some i := by
  unfold decode; cases dispatch (fields op) <;> simp

theorem decode_eq_miss {op : Word} : decode op = .rejected (.dispatchMiss op) ↔ dispatch (fields op) = none := by
  unfold decode; cases dispatch (fields op) <;> simp

/-! ## The value of each format -/

theorem toNat_formNNN (g : Nibble) (nnn : Imm12) : (formNNN g nnn).toNat = g.toNat * 4096 + nnn.toNat := by
  simp only [formNNN, BitVec.toNat_append]
  rw [← Nat.shiftLeft_add_eq_or_of_lt (by omega), Nat.shiftLeft_eq]

theorem toNat_formXNN (g x : Nibble) (nn : Byte) :
    (formXNN g x nn).toNat = g.toNat * 4096 + x.toNat * 256 + nn.toNat := by
  simp only [formXNN, BitVec.toNat_append]
  rw [← Nat.shiftLeft_add_eq_or_of_lt (by omega), ← Nat.shiftLeft_add_eq_or_of_lt (by omega)]
  simp only [Nat.shiftLeft_eq]
  omega

theorem toNat_formXYN (g x y n : Nibble) :
    (formXYN g x y n).toNat = g.toNat * 4096 + x.toNat * 256 + y.toNat * 16 + n.toNat := by
  simp only [formXYN, BitVec.toNat_append]
  rw [← Nat.shiftLeft_add_eq_or_of_lt (by omega), ← Nat.shiftLeft_add_eq_or_of_lt (by omega),
    ← Nat.shiftLeft_add_eq_or_of_lt (by omega)]
  simp only [Nat.shiftLeft_eq]
  omega

/-! ## The fields read back -/

theorem fields_formNNN (g : Nibble) (nnn : Imm12) :
    (fields (formNNN g nnn)).g = g ∧ (fields (formNNN g nnn)).nnn = nnn := by
  refine ⟨?_, ?_⟩ <;>
    · apply BitVec.eq_of_toNat_eq
      simp only [fields, BitVec.extractLsb'_toNat, toNat_formNNN, Nat.shiftRight_eq_div_pow]
      omega

theorem fields_formXNN (g x : Nibble) (nn : Byte) :
    (fields (formXNN g x nn)).g = g ∧ (fields (formXNN g x nn)).x = x ∧ (fields (formXNN g x nn)).nn = nn := by
  refine ⟨?_, ?_, ?_⟩ <;>
    · apply BitVec.eq_of_toNat_eq
      simp only [fields, BitVec.extractLsb'_toNat, toNat_formXNN, Nat.shiftRight_eq_div_pow]
      omega

theorem fields_formXYN (g x y n : Nibble) :
    (fields (formXYN g x y n)).g = g ∧ (fields (formXYN g x y n)).x = x ∧ (fields (formXYN g x y n)).y = y
      ∧ (fields (formXYN g x y n)).n = n := by
  refine ⟨?_, ?_, ?_, ?_⟩ <;>
    · apply BitVec.eq_of_toNat_eq
      simp only [fields, BitVec.extractLsb'_toNat, toNat_formXYN, Nat.shiftRight_eq_div_pow]
      omega

/-! ## An opcode from its fields -/

theorem formNNN_fields (op : Word) : formNNN (fields op).g (fields op).nnn = op := by
  apply BitVec.eq_of_toNat_eq
  simp only [toNat_formNNN, fields, BitVec.extractLsb'_toNat, Nat.shiftRight_eq_div_pow]
  omega

theorem formXNN_fields (op : Word) : formXNN (fields op).g (fields op).x (fields op).nn = op := by
  apply BitVec.eq_of_toNat_eq
  simp only [toNat_formXNN, fields, BitVec.extractLsb'_toNat, Nat.shiftRight_eq_div_pow]
  omega

theorem formXYN_fields (op : Word) : formXYN (fields op).g (fields op).x (fields op).y (fields op).n = op := by
  apply BitVec.eq_of_toNat_eq
  simp only [toNat_formXYN, fields, BitVec.extractLsb'_toNat, Nat.shiftRight_eq_div_pow]
  omega

/-! ## Masks

A mask with whole nibbles keeps whole fields, so a masked opcode is compared field by field. -/

/-- Masking works on the parts of a concatenation separately. -/
theorem append_and_append {m n : Nat} (a c : BitVec m) (b d : BitVec n) :
    (a ++ b) &&& (c ++ d) = (a &&& c) ++ (b &&& d) := by
  ext k hk
  simp only [BitVec.getElem_and, BitVec.getElem_append]
  split <;> rfl

theorem nibble_and_ones (b : Nibble) : b &&& 0xF#4 = b := BitVec.and_allOnes
theorem byte_and_ones (b : Byte) : b &&& 0xFF#8 = b := BitVec.and_allOnes

theorem formXNN_and (g x g' x' : Nibble) (nn nn' : Byte) :
    formXNN g x nn &&& formXNN g' x' nn' = formXNN (g &&& g') (x &&& x') (nn &&& nn') :=
  (append_and_append (g ++ x) (g' ++ x') nn nn').trans
    (congrArg (fun t : BitVec 8 => t ++ (nn &&& nn')) (append_and_append g g' x x'))

theorem formXYN_and (g x y n g' x' y' n' : Nibble) :
    formXYN g x y n &&& formXYN g' x' y' n' = formXYN (g &&& g') (x &&& x') (y &&& y') (n &&& n') :=
  (append_and_append (g ++ x ++ y) (g' ++ x' ++ y') n n').trans
    (congrArg (fun t : BitVec 12 => t ++ (n &&& n'))
      ((append_and_append (g ++ x) (g' ++ x') y y').trans
        (congrArg (fun t : BitVec 8 => t ++ (y &&& y')) (append_and_append g g' x x'))))

theorem and_F000 (op : Word) : op &&& 0xF000#16 = formXNN (fields op).g 0 0 := by
  conv_lhs => rw [← formXNN_fields op, show (0xF000#16 : Word) = formXNN 0xF#4 0#4 0#8 from rfl, formXNN_and]
  simp only [nibble_and_ones, BitVec.and_zero]
  rfl

theorem and_F0FF (op : Word) : op &&& 0xF0FF#16 = formXNN (fields op).g 0 (fields op).nn := by
  conv_lhs => rw [← formXNN_fields op, show (0xF0FF#16 : Word) = formXNN 0xF#4 0#4 0xFF#8 from rfl, formXNN_and]
  simp only [nibble_and_ones, byte_and_ones, BitVec.and_zero]
  rfl

theorem and_F00F (op : Word) : op &&& 0xF00F#16 = formXYN (fields op).g 0 0 (fields op).n := by
  conv_lhs => rw [← formXYN_fields op, show (0xF00F#16 : Word) = formXYN 0xF#4 0#4 0#4 0xF#4 from rfl, formXYN_and]
  simp only [nibble_and_ones, BitVec.and_zero]
  rfl

theorem and_FFF0 (op : Word) : op &&& 0xFFF0#16 = formXYN (fields op).g (fields op).x (fields op).y 0 := by
  conv_lhs => rw [← formXYN_fields op, show (0xFFF0#16 : Word) = formXYN 0xF#4 0xF#4 0xF#4 0#4 from rfl, formXYN_and]
  simp only [nibble_and_ones, BitVec.and_zero]
  rfl

theorem formXNN_inj {g x g' x' : Nibble} {nn nn' : Byte} :
    formXNN g x nn = formXNN g' x' nn' ↔ g = g' ∧ x = x' ∧ nn = nn' := by
  constructor
  · intro h
    have h1 := fields_formXNN g x nn
    have h2 := fields_formXNN g' x' nn'
    rw [h] at h1
    exact ⟨h1.1.symm.trans h2.1, h1.2.1.symm.trans h2.2.1, h1.2.2.symm.trans h2.2.2⟩
  · rintro ⟨rfl, rfl, rfl⟩; rfl

theorem formXYN_inj {g x y n g' x' y' n' : Nibble} :
    formXYN g x y n = formXYN g' x' y' n' ↔ g = g' ∧ x = x' ∧ y = y' ∧ n = n' := by
  constructor
  · intro h
    have h1 := fields_formXYN g x y n
    have h2 := fields_formXYN g' x' y' n'
    rw [h] at h1
    exact ⟨h1.1.symm.trans h2.1, h1.2.1.symm.trans h2.2.1, h1.2.2.1.symm.trans h2.2.2.1,
      h1.2.2.2.symm.trans h2.2.2.2⟩
  · rintro ⟨rfl, rfl, rfl, rfl⟩; rfl

end Sys2Proof
end

