-- ==== Sys2Proof/Laws/Display.lean ====
section
/-! SUPPORT. What drawing does to each pixel and when it collides (43_display_input_timer.md R161, R168). -/

namespace Sys2Proof.Machine

/-- A display is its pixels. -/
theorem display_ext {d d' : Display} (h : ∀ y x, y < 32 → x < 64 → pixelAt d y x = pixelAt d' y x) : d = d' := by
  apply Vector.ext
  intro y hy
  apply Vector.ext
  intro x hx
  have := h y x hy hx
  simpa [pixelAt, hy, hx] using this

/-- Outside the buffer there is no pixel. -/
theorem pixelAt_outside (d : Display) {y x : Nat} (h : ¬ (y < 32 ∧ x < 64)) : pixelAt d y x = false := by
  rw [pixelAt, dif_neg h]

theorem pixelAt_clearDisplay (y x : Nat) : pixelAt clearDisplay y x = false := by
  unfold pixelAt
  split
  · simp [clearDisplay]
  · rfl

/-- A flip changes its own pixel and no other. -/
theorem pixelAt_flipPixel (d : Display) (y x y' x' : Nat) :
    pixelAt (flipPixel d y x) y' x' = ((pixelAt d y' x') ^^ decide (y = y' ∧ x = x' ∧ y < 32 ∧ x < 64)) := by
  unfold flipPixel
  by_cases h : y < 32 ∧ x < 64
  · rw [dif_pos h]
    by_cases h' : y' < 32 ∧ x' < 64
    · simp only [pixelAt, dif_pos h', Vector.getElem_set]
      by_cases hy : y = y'
      · subst hy
        by_cases hx : x = x'
        · subst hx; simp [h]
        · simp [hx]
      · simp [hy]
    · rw [pixelAt_outside _ h', pixelAt_outside _ h']
      have : ¬ (y = y' ∧ x = x' ∧ y < 32 ∧ x < 64) := by omega
      simp [this]
  · rw [dif_neg h]
    have : ¬ (y = y' ∧ x = x' ∧ y < 32 ∧ x < 64) := by omega
    simp [this]

/-- The position is one the pixels `k`, ..., `k + count - 1` of sprite byte `b`, drawn in row `y` from column `x0`,
turn over. -/
def RowBitOn (b : Byte) (y x0 count k y' x' : Nat) : Prop :=
  y = y' ∧ x' < 64 ∧ x0 + k ≤ x' ∧ x' < x0 + k + count ∧ b.getLsbD (7 - (x' - x0)) = true

/-- Pixels of one sprite row: exactly the on bits inside the buffer are turned over. -/
theorem pixelAt_drawPixels (b : Byte) {y : Nat} (hy : y < 32) (x0 : Nat) (count k : Nat) (dc : Display × Bool)
    (y' x' : Nat) :
    (pixelAt (drawPixels b y x0 count k dc).1 y' x' = true ↔
      (pixelAt dc.1 y' x' = true ↔ ¬ RowBitOn b y x0 count k y' x')) := by
  induction count generalizing k dc with
  | zero =>
    have : ¬ RowBitOn b y x0 0 k y' x' := by unfold RowBitOn; omega
    simp [drawPixels, this]
  | succ n ih =>
    rw [drawPixels]
    split
    · next h =>
      have : ¬ RowBitOn b y x0 (n + 1) k y' x' := by
        simp only [Config.width] at h; unfold RowBitOn; omega
      simp [this]
    · next h =>
      have hw : x0 + k < 64 := by simpa [Config.width] using h
      have hsplit : RowBitOn b y x0 (n + 1) k y' x' ↔
          (y = y' ∧ x0 + k = x' ∧ b.getLsbD (7 - k) = true) ∨ RowBitOn b y x0 n (k + 1) y' x' := by
        unfold RowBitOn
        constructor
        · rintro ⟨h1, h2, h3, h4, h5⟩
          by_cases he : x0 + k = x'
          · left; refine ⟨h1, he, ?_⟩; rwa [show x' - x0 = k by omega] at h5
          · right; exact ⟨h1, h2, by omega, by omega, h5⟩
        · rintro (⟨h1, h2, h3⟩ | ⟨h1, h2, h3, h4, h5⟩)
          · refine ⟨h1, by omega, by omega, by omega, ?_⟩; rwa [show x' - x0 = k by omega]
          · exact ⟨h1, h2, by omega, by omega, h5⟩
      have hex : x0 + k = x' → ¬ RowBitOn b y x0 n (k + 1) y' x' := by intro e; unfold RowBitOn; omega
      split
      · next hb =>
        rw [ih, pixelAt_flipPixel, hsplit]
        by_cases hp : y = y' ∧ x0 + k = x'
        · have hn := hex hp.2
          have : decide (y = y' ∧ x0 + k = x' ∧ y < 32 ∧ x0 + k < 64) = true := by
            simp only [decide_eq_true_eq]; omega
          rw [this]
          have hl : y = y' ∧ x0 + k = x' ∧ b.getLsbD (7 - k) = true := ⟨hp.1, hp.2, hb⟩
          cases pixelAt dc.1 y' x' <;> simp [eq_true hl, eq_false hn]
        · have : decide (y = y' ∧ x0 + k = x' ∧ y < 32 ∧ x0 + k < 64) = false := by
            simp only [decide_eq_false_iff_not]; tauto
          rw [this]
          have hp' : ¬ (y = y' ∧ x0 + k = x' ∧ b.getLsbD (7 - k) = true) := by tauto
          simp [hp']
      · next hb =>
        rw [ih, hsplit]
        have hp' : ¬ (y = y' ∧ x0 + k = x' ∧ b.getLsbD (7 - k) = true) := by tauto
        simp [hp']

/-- One sprite row collides exactly where an on bit meets an on pixel. -/
theorem collides_drawPixels (b : Byte) (y x0 : Nat) (count k : Nat) (dc : Display × Bool) :
    ((drawPixels b y x0 count k dc).2 = true ↔
      (dc.2 = true ∨ ∃ x', RowBitOn b y x0 count k y x' ∧ pixelAt dc.1 y x' = true)) := by
  induction count generalizing k dc with
  | zero =>
    have : ∀ x', ¬ RowBitOn b y x0 0 k y x' := by intro x'; unfold RowBitOn; omega
    simp [drawPixels, this]
  | succ n ih =>
    rw [drawPixels]
    split
    · next h =>
      have : ∀ x', ¬ RowBitOn b y x0 (n + 1) k y x' := by
        intro x'; simp only [Config.width] at h; unfold RowBitOn; omega
      simp [this]
    · next h =>
      have hw : x0 + k < 64 := by simpa [Config.width] using h
      have hfst : b.getLsbD (7 - k) = true → RowBitOn b y x0 (n + 1) k y (x0 + k) := by
        intro hb; refine ⟨rfl, hw, by omega, by omega, ?_⟩; rwa [show x0 + k - x0 = k by omega]
      have hrest : ∀ x', RowBitOn b y x0 n (k + 1) y x' → RowBitOn b y x0 (n + 1) k y x' ∧ x0 + k ≠ x' := by
        rintro x' ⟨h1, h2, h3, h4, h5⟩; exact ⟨⟨h1, h2, by omega, by omega, h5⟩, by omega⟩
      have hback : ∀ x', RowBitOn b y x0 (n + 1) k y x' → x0 + k ≠ x' → RowBitOn b y x0 n (k + 1) y x' := by
        rintro x' ⟨h1, h2, h3, h4, h5⟩ hne; exact ⟨h1, h2, by omega, by omega, h5⟩
      split
      · next hb =>
        rw [ih]
        have hpix : ∀ x', x0 + k ≠ x' → pixelAt (flipPixel dc.1 y (x0 + k)) y x' = pixelAt dc.1 y x' := by
          intro x' hne; rw [pixelAt_flipPixel]; simp [hne]
        constructor
        · rintro (h1 | ⟨x', h1, h2⟩)
          · rcases Bool.or_eq_true_iff.mp h1 with h1 | h1
            · exact .inl h1
            · exact .inr ⟨_, hfst hb, h1⟩
          · obtain ⟨h3, h4⟩ := hrest x' h1
            exact .inr ⟨x', h3, by rwa [hpix x' h4] at h2⟩
        · rintro (h1 | ⟨x', h1, h2⟩)
          · left; simp [h1]
          · by_cases he : x0 + k = x'
            · subst he; left; simp [h2]
            · exact .inr ⟨x', hback x' h1 he, by rwa [hpix x' he]⟩
      · next hb =>
        rw [ih]
        constructor
        · rintro (h1 | ⟨x', h1, h2⟩)
          · exact .inl h1
          · exact .inr ⟨x', (hrest x' h1).1, h2⟩
        · rintro (h1 | ⟨x', h1, h2⟩)
          · exact .inl h1
          · refine .inr ⟨x', hback x' h1 ?_, h2⟩
            rintro rfl
            obtain ⟨_, _, _, _, h5⟩ := h1
            rw [show x0 + k - x0 = k by omega] at h5
            exact hb h5

/-- The position is one that rows `r`, ..., `r + count - 1` of the sprite at `base`, drawn from `(x0, y0)`, turn over. -/
def SpriteRowsOn (m : Memory) (base x0 y0 count r y' x' : Nat) : Prop :=
  y' < 32 ∧ x' < 64 ∧ y0 + r ≤ y' ∧ y' < y0 + r + count ∧ x0 ≤ x' ∧ x' < x0 + 8
    ∧ (memRead m (base + (y' - y0))).getLsbD (7 - (x' - x0)) = true

/-- One row more: the first row's bits and the rest. -/
theorem spriteRowsOn_succ (m : Memory) (base x0 y0 n r y' x' : Nat) (h : y0 + r < 32) :
    SpriteRowsOn m base x0 y0 (n + 1) r y' x' ↔
      RowBitOn (memRead m (base + r)) (y0 + r) x0 8 0 y' x' ∨ SpriteRowsOn m base x0 y0 n (r + 1) y' x' := by
  unfold SpriteRowsOn RowBitOn
  constructor
  · rintro ⟨h1, h2, h3, h4, h5, h6, h7⟩
    by_cases he : y0 + r = y'
    · left; refine ⟨he, h2, by omega, by omega, ?_⟩; rwa [show y' - y0 = r by omega] at h7
    · right; exact ⟨h1, h2, by omega, by omega, h5, h6, h7⟩
  · rintro (⟨h1, h2, h3, h4, h5⟩ | ⟨h1, h2, h3, h4, h5, h6, h7⟩)
    · refine ⟨by omega, h2, by omega, by omega, by omega, by omega, ?_⟩; rwa [show y' - y0 = r by omega]
    · exact ⟨h1, h2, by omega, by omega, h5, h6, h7⟩

/-- Every pixel after a sprite: turned over exactly where the sprite has an on bit inside the buffer. -/
theorem pixelAt_drawRows (m : Memory) (base x0 y0 count r : Nat) (dc : Display × Bool) (y' x' : Nat) :
    (pixelAt (drawRows m base x0 y0 count r dc).1 y' x' = true ↔
      (pixelAt dc.1 y' x' = true ↔ ¬ SpriteRowsOn m base x0 y0 count r y' x')) := by
  induction count generalizing r dc with
  | zero =>
    have : ¬ SpriteRowsOn m base x0 y0 0 r y' x' := by unfold SpriteRowsOn; omega
    simp [drawRows, this]
  | succ n ih =>
    rw [drawRows]
    split
    · next h =>
      have : ¬ SpriteRowsOn m base x0 y0 (n + 1) r y' x' := by
        simp only [Config.height] at h; unfold SpriteRowsOn; omega
      simp [this]
    · next h =>
      have hy : y0 + r < 32 := by simpa [Config.height] using h
      rw [ih, pixelAt_drawPixels _ hy, spriteRowsOn_succ _ _ _ _ _ _ _ _ hy]
      have hex : RowBitOn (memRead m (base + r)) (y0 + r) x0 8 0 y' x' → ¬ SpriteRowsOn m base x0 y0 n (r + 1) y' x' := by
        unfold RowBitOn SpriteRowsOn; omega
      tauto

/-- A sprite collides exactly where an on bit inside the buffer meets an on pixel. -/
theorem collides_drawRows (m : Memory) (base x0 y0 count r : Nat) (dc : Display × Bool) :
    ((drawRows m base x0 y0 count r dc).2 = true ↔
      (dc.2 = true ∨ ∃ y' x', SpriteRowsOn m base x0 y0 count r y' x' ∧ pixelAt dc.1 y' x' = true)) := by
  induction count generalizing r dc with
  | zero =>
    have : ∀ y' x', ¬ SpriteRowsOn m base x0 y0 0 r y' x' := by intro y' x'; unfold SpriteRowsOn; omega
    simp [drawRows, this]
  | succ n ih =>
    rw [drawRows]
    split
    · next h =>
      have : ∀ y' x', ¬ SpriteRowsOn m base x0 y0 (n + 1) r y' x' := by
        intro y' x'; simp only [Config.height] at h; unfold SpriteRowsOn; omega
      simp [this]
    · next h =>
      have hy : y0 + r < 32 := by simpa [Config.height] using h
      have hpix : ∀ y' x', SpriteRowsOn m base x0 y0 n (r + 1) y' x' →
          (pixelAt (drawPixels (memRead m (base + r)) (y0 + r) x0 8 0 dc).1 y' x' = true ↔ pixelAt dc.1 y' x' = true) := by
        intro y' x' hs
        rw [pixelAt_drawPixels _ hy]
        have : ¬ RowBitOn (memRead m (base + r)) (y0 + r) x0 8 0 y' x' := by
          unfold SpriteRowsOn at hs; unfold RowBitOn; omega
        tauto
      rw [ih, collides_drawPixels]
      simp only [spriteRowsOn_succ _ _ _ _ _ _ _ _ hy]
      constructor
      · rintro ((h1 | ⟨x', h1, h2⟩) | ⟨y', x', h1, h2⟩)
        · exact .inl h1
        · exact .inr ⟨_, x', .inl h1, h2⟩
        · exact .inr ⟨y', x', .inr h1, (hpix y' x' h1).mp h2⟩
      · rintro (h1 | ⟨y', x', h1 | h1, h2⟩)
        · exact .inl (.inl h1)
        · have : y0 + r = y' := h1.1
          subst this
          exact .inl (.inr ⟨x', h1, h2⟩)
        · exact .inr ⟨y', x', h1, (hpix y' x' h1).mpr h2⟩

end Sys2Proof.Machine
end

