-- ==== Sys2Proof/Laws/Memory.lean ====
section
/-! SUPPORT. Memory: a read after a write, the canonical form, runs of byte writes. -/

namespace Sys2Proof.Machine

/-! ## Cells -/

/-- Reading past a cell that was put in front. -/
theorem cellAt_consCell {m : Memory} {a b : Nat} {w : Byte} (hm : ∀ c ≤ a, cellAt m c = background c) :
    cellAt (consCell a w m) b = if a = b then w else cellAt m b := by
  unfold consCell
  split
  · next hw =>
    split
    · next h => subst h; rw [hm a (le_refl a), hw]
    · rfl
  · rfl

/-- Below its first listed address a canonical memory reads as the reset contents. -/
theorem cellAt_of_lt {m : Memory} {lo : Nat} (hm : wfFrom lo m = true) {a : Nat} (h : a < lo) :
    cellAt m a = background a := by
  induction m generalizing lo with
  | nil => rfl
  | cons p rest ih =>
    obtain ⟨b, w⟩ := p
    simp only [wfFrom, Bool.and_eq_true, decide_eq_true_eq] at hm
    rw [cellAt, if_neg (by omega)]
    exact ih hm.2 (by omega)

/-- A smaller bound does for a canonical memory. -/
theorem wfFrom_mono {m : Memory} {lo lo' : Nat} (h : lo' ≤ lo) (hm : wfFrom lo m = true) : wfFrom lo' m = true := by
  cases m with
  | nil => rfl
  | cons p rest =>
    obtain ⟨b, w⟩ := p
    simp only [wfFrom, Bool.and_eq_true, decide_eq_true_eq] at hm ⊢
    exact ⟨⟨⟨by omega, hm.1.1.2⟩, hm.1.2⟩, hm.2⟩

theorem wfFrom_consCell {m : Memory} {lo a : Nat} (w : Byte) (hlo : lo ≤ a) (ha : a < Config.memSize)
    (hm : wfFrom (a + 1) m = true) : wfFrom lo (consCell a w m) = true := by
  unfold consCell
  split
  · exact wfFrom_mono (by omega) hm
  · next hw => simp [wfFrom, hlo, ha, hw, hm]

theorem wfFrom_setCell {m : Memory} {lo a : Nat} (w : Byte) (hlo : lo ≤ a) (ha : a < Config.memSize)
    (hm : wfFrom lo m = true) : wfFrom lo (setCell m a w) = true := by
  induction m generalizing lo with
  | nil => exact wfFrom_consCell w hlo ha rfl
  | cons p rest ih =>
    obtain ⟨b, u⟩ := p
    have hm' := hm
    simp only [wfFrom, Bool.and_eq_true, decide_eq_true_eq] at hm'
    obtain ⟨⟨⟨h1, h2⟩, h3⟩, h4⟩ := hm'
    simp only [setCell]
    split
    · next h => exact wfFrom_consCell w hlo ha (by simp [wfFrom, h2, h3, h4]; omega)
    · split
      · next h => subst h; exact wfFrom_consCell w hlo ha h4
      · simp [wfFrom, h1, h2, h3, ih (by omega) h4]

/-- What a cell holds after one was set. -/
theorem cellAt_setCell {m : Memory} {lo : Nat} (hm : wfFrom lo m = true) (a b : Nat) (w : Byte) :
    cellAt (setCell m a w) b = if a = b then w else cellAt m b := by
  induction m generalizing lo with
  | nil => exact cellAt_consCell (fun _ _ => rfl)
  | cons p rest ih =>
    obtain ⟨c, u⟩ := p
    have hm' := hm
    simp only [wfFrom, Bool.and_eq_true, decide_eq_true_eq] at hm'
    obtain ⟨⟨⟨h1, h2⟩, h3⟩, h4⟩ := hm'
    simp only [setCell]
    split
    · next h =>
      refine cellAt_consCell (fun d hd => ?_)
      rw [cellAt, if_neg (by omega)]
      exact cellAt_of_lt h4 (by omega)
    · split
      · next h =>
        subst h
        rw [cellAt_consCell (fun d hd => cellAt_of_lt h4 (by omega)), cellAt]
        split <;> rfl
      · rw [cellAt, cellAt, ih h4]
        split_ifs <;> first | rfl | omega

/-- Canonical memories that read alike are equal. -/
theorem wf_ext {m m' : Memory} {lo : Nat} (hm : wfFrom lo m = true) (hm' : wfFrom lo m' = true)
    (h : ∀ a, cellAt m a = cellAt m' a) : m = m' := by
  induction m generalizing lo m' with
  | nil =>
    cases m' with
    | nil => rfl
    | cons q rest' =>
      obtain ⟨b, w⟩ := q
      simp only [wfFrom, Bool.and_eq_true, decide_eq_true_eq] at hm'
      have := h b
      simp [cellAt] at this
      exact absurd this.symm hm'.1.2
  | cons p rest ih =>
    obtain ⟨a, u⟩ := p
    simp only [wfFrom, Bool.and_eq_true, decide_eq_true_eq] at hm
    obtain ⟨⟨⟨h1, h2⟩, h3⟩, h4⟩ := hm
    cases m' with
    | nil =>
      have := h a
      simp [cellAt] at this
      exact absurd this h3
    | cons q rest' =>
      obtain ⟨b, w⟩ := q
      simp only [wfFrom, Bool.and_eq_true, decide_eq_true_eq] at hm'
      obtain ⟨⟨⟨g1, g2⟩, g3⟩, g4⟩ := hm'
      have hab : a = b := by
        rcases Nat.lt_trichotomy a b with hlt | heq | hgt
        · have e := h a
          simp only [cellAt, if_true, if_neg (show ¬ b = a by omega)] at e
          rw [cellAt_of_lt g4 (by omega)] at e
          exact absurd e h3
        · exact heq
        · have e := h b
          simp only [cellAt, if_true, if_neg (show ¬ a = b by omega)] at e
          rw [cellAt_of_lt h4 (by omega)] at e
          exact absurd e.symm g3
      subst hab
      have huw : u = w := by simpa [cellAt] using h a
      subst huw
      have : rest = rest' := ih h4 g4 (fun c => by
        by_cases hc : a = c
        · subst hc; rw [cellAt_of_lt h4 (by omega), cellAt_of_lt g4 (by omega)]
        · have := h c
          simpa [cellAt, hc] using this)
      rw [this]

/-! ## Logical addresses -/

theorem effective_lt (a : Nat) : effective a < Config.memSize := Nat.mod_lt _ (by decide)

/-- Only the reduced address counts (20_memory.md R44). -/
theorem memRead_congr (m : Memory) {a b : Nat} (h : effective a = effective b) : memRead m a = memRead m b := by
  rw [memRead, memRead, h]

theorem memWrite_congr (m : Memory) {a b : Nat} (w : Byte) (h : effective a = effective b) :
    memWrite m a w = memWrite m b w := by
  rw [memWrite, memWrite, h]

theorem wf_memWrite {m : Memory} (hm : Memory.wf m = true) (a : Nat) (w : Byte) : Memory.wf (memWrite m a w) = true :=
  wfFrom_setCell w (Nat.zero_le _) (effective_lt a) hm

/-- A read after a write: the byte written at the same cell, else what was there. -/
theorem memRead_memWrite {m : Memory} (hm : Memory.wf m = true) (a b : Nat) (w : Byte) :
    memRead (memWrite m a w) b = if effective a = effective b then w else memRead m b :=
  cellAt_setCell hm _ _ w

theorem wf_memWriteAll (l : List Byte) {m : Memory} (hm : Memory.wf m = true) (a : Nat) :
    Memory.wf (memWriteAll m a l) = true := by
  induction l generalizing m a with
  | nil => exact hm
  | cons w ws ih => exact ih (wf_memWrite hm a w) (a + 1)

theorem memWriteAll_congr (l : List Byte) (m : Memory) {a b : Nat} (h : effective a = effective b) :
    memWriteAll m a l = memWriteAll m b l := by
  induction l generalizing m a b with
  | nil => rfl
  | cons w ws ih =>
    rw [memWriteAll, memWriteAll, memWrite_congr m w h]
    exact ih _ (by simp only [effective, Config.memSize] at h ⊢; omega)

/-- A run of writes leaves every cell outside its span alone. -/
theorem memRead_memWriteAll_outside (l : List Byte) {m : Memory} (hm : Memory.wf m = true) (a b : Nat)
    (h : ∀ k < l.length, effective (a + k) ≠ effective b) : memRead (memWriteAll m a l) b = memRead m b := by
  induction l generalizing m a with
  | nil => rfl
  | cons w ws ih =>
    rw [memWriteAll, ih (wf_memWrite hm a w) (a + 1)
      (fun k hk => by have := h (k + 1) (by simpa using hk); rwa [show a + 1 + k = a + (k + 1) by omega])]
    rw [memRead_memWrite hm, if_neg (by simpa using h 0 (by simp))]

/-- The `k`-th byte of a run of writes no longer than memory is read back at its address. -/
theorem memRead_memWriteAll_inside (l : List Byte) {m : Memory} (hm : Memory.wf m = true) (a k : Nat)
    (hk : k < l.length) (hl : l.length ≤ Config.memSize) : memRead (memWriteAll m a l) (a + k) = l[k] := by
  induction l generalizing m a k with
  | nil => simp at hk
  | cons w ws ih =>
    have hlen : ws.length + 1 ≤ 4096 := by simpa [Config.memSize] using hl
    cases k with
    | zero =>
      rw [memWriteAll, memRead_memWriteAll_outside ws (wf_memWrite hm a w)]
      · rw [memRead_memWrite hm]; simp
      · intro k hk'
        simp only [effective, Config.memSize]
        omega
    | succ k =>
      rw [memWriteAll, show a + (k + 1) = a + 1 + k by omega]
      simpa using ih (wf_memWrite hm a w) (a + 1) k (by simpa using hk) (by simp [Config.memSize]; omega)

end Sys2Proof.Machine
end

