-- ==== Sys2Proof/Laws/State.lean ====
section
/-! SUPPORT. One lemma for each field and each named update of State, so that no proof unfolds a record update. -/

namespace Sys2Proof.Machine

variable (s : State)

/-! ## `setReg` -/

@[simp] theorem State.setReg_v (x : Nibble) (b : Byte) : (s.setReg x b).v = s.v.set x.toNat b x.isLt := rfl
@[simp] theorem State.setReg_i (x : Nibble) (b : Byte) : (s.setReg x b).i = s.i := rfl
@[simp] theorem State.setReg_pc (x : Nibble) (b : Byte) : (s.setReg x b).pc = s.pc := rfl
@[simp] theorem State.setReg_sp (x : Nibble) (b : Byte) : (s.setReg x b).sp = s.sp := rfl
@[simp] theorem State.setReg_stack (x : Nibble) (b : Byte) : (s.setReg x b).stack = s.stack := rfl
@[simp] theorem State.setReg_dt (x : Nibble) (b : Byte) : (s.setReg x b).dt = s.dt := rfl
@[simp] theorem State.setReg_st (x : Nibble) (b : Byte) : (s.setReg x b).st = s.st := rfl
@[simp] theorem State.setReg_disp (x : Nibble) (b : Byte) : (s.setReg x b).disp = s.disp := rfl
@[simp] theorem State.setReg_keys (x : Nibble) (b : Byte) : (s.setReg x b).keys = s.keys := rfl
@[simp] theorem State.setReg_mem (x : Nibble) (b : Byte) : (s.setReg x b).mem = s.mem := rfl
@[simp] theorem State.setReg_cfg (x : Nibble) (b : Byte) : (s.setReg x b).cfg = s.cfg := rfl
@[simp] theorem State.setReg_status (x : Nibble) (b : Byte) : (s.setReg x b).status = s.status := rfl
@[simp] theorem State.setReg_rndIn (x : Nibble) (b : Byte) : (s.setReg x b).rndIn = s.rndIn := rfl
@[simp] theorem State.setReg_draws (x : Nibble) (b : Byte) : (s.setReg x b).draws = s.draws := rfl

/-! ## `raise` -/

@[simp] theorem State.raise_v (c : Cause) : (s.raise c).v = s.v := rfl
@[simp] theorem State.raise_i (c : Cause) : (s.raise c).i = s.i := rfl
@[simp] theorem State.raise_pc (c : Cause) : (s.raise c).pc = s.pcInsn := rfl
@[simp] theorem State.raise_sp (c : Cause) : (s.raise c).sp = s.sp := rfl
@[simp] theorem State.raise_stack (c : Cause) : (s.raise c).stack = s.stack := rfl
@[simp] theorem State.raise_dt (c : Cause) : (s.raise c).dt = s.dt := rfl
@[simp] theorem State.raise_st (c : Cause) : (s.raise c).st = s.st := rfl
@[simp] theorem State.raise_disp (c : Cause) : (s.raise c).disp = s.disp := rfl
@[simp] theorem State.raise_keys (c : Cause) : (s.raise c).keys = s.keys := rfl
@[simp] theorem State.raise_mem (c : Cause) : (s.raise c).mem = s.mem := rfl
@[simp] theorem State.raise_cfg (c : Cause) : (s.raise c).cfg = s.cfg := rfl
@[simp] theorem State.raise_status (c : Cause) : (s.raise c).status = statusWord s.isLoaded c.code true := rfl
@[simp] theorem State.raise_rndIn (c : Cause) : (s.raise c).rndIn = s.rndIn := rfl
@[simp] theorem State.raise_draws (c : Cause) : (s.raise c).draws = s.draws := rfl

/-! ## `advance` -/

@[simp] theorem State.advance_v : (s.advance).v = s.v := rfl
@[simp] theorem State.advance_i : (s.advance).i = s.i := rfl
@[simp] theorem State.advance_pc : (s.advance).pc = s.pc + 2 := rfl
@[simp] theorem State.advance_sp : (s.advance).sp = s.sp := rfl
@[simp] theorem State.advance_stack : (s.advance).stack = s.stack := rfl
@[simp] theorem State.advance_dt : (s.advance).dt = s.dt := rfl
@[simp] theorem State.advance_st : (s.advance).st = s.st := rfl
@[simp] theorem State.advance_disp : (s.advance).disp = s.disp := rfl
@[simp] theorem State.advance_keys : (s.advance).keys = s.keys := rfl
@[simp] theorem State.advance_mem : (s.advance).mem = s.mem := rfl
@[simp] theorem State.advance_cfg : (s.advance).cfg = s.cfg := rfl
@[simp] theorem State.advance_status : (s.advance).status = s.status := rfl
@[simp] theorem State.advance_rndIn : (s.advance).rndIn = s.rndIn := rfl
@[simp] theorem State.advance_draws : (s.advance).draws = s.draws := rfl

/-! ## `jump` -/

@[simp] theorem State.jump_v (p : Word) : (s.jump p).v = s.v := rfl
@[simp] theorem State.jump_i (p : Word) : (s.jump p).i = s.i := rfl
@[simp] theorem State.jump_pc (p : Word) : (s.jump p).pc = p := rfl
@[simp] theorem State.jump_sp (p : Word) : (s.jump p).sp = s.sp := rfl
@[simp] theorem State.jump_stack (p : Word) : (s.jump p).stack = s.stack := rfl
@[simp] theorem State.jump_dt (p : Word) : (s.jump p).dt = s.dt := rfl
@[simp] theorem State.jump_st (p : Word) : (s.jump p).st = s.st := rfl
@[simp] theorem State.jump_disp (p : Word) : (s.jump p).disp = s.disp := rfl
@[simp] theorem State.jump_keys (p : Word) : (s.jump p).keys = s.keys := rfl
@[simp] theorem State.jump_mem (p : Word) : (s.jump p).mem = s.mem := rfl
@[simp] theorem State.jump_cfg (p : Word) : (s.jump p).cfg = s.cfg := rfl
@[simp] theorem State.jump_status (p : Word) : (s.jump p).status = s.status := rfl
@[simp] theorem State.jump_rndIn (p : Word) : (s.jump p).rndIn = s.rndIn := rfl
@[simp] theorem State.jump_draws (p : Word) : (s.jump p).draws = s.draws := rfl

/-! ## `skipIf` -/

@[simp] theorem State.skipIf_v (c : Bool) : (s.skipIf c).v = s.v := rfl
@[simp] theorem State.skipIf_i (c : Bool) : (s.skipIf c).i = s.i := rfl
@[simp] theorem State.skipIf_pc (c : Bool) : (s.skipIf c).pc = if c then s.pc + 2 else s.pc := rfl
@[simp] theorem State.skipIf_sp (c : Bool) : (s.skipIf c).sp = s.sp := rfl
@[simp] theorem State.skipIf_stack (c : Bool) : (s.skipIf c).stack = s.stack := rfl
@[simp] theorem State.skipIf_dt (c : Bool) : (s.skipIf c).dt = s.dt := rfl
@[simp] theorem State.skipIf_st (c : Bool) : (s.skipIf c).st = s.st := rfl
@[simp] theorem State.skipIf_disp (c : Bool) : (s.skipIf c).disp = s.disp := rfl
@[simp] theorem State.skipIf_keys (c : Bool) : (s.skipIf c).keys = s.keys := rfl
@[simp] theorem State.skipIf_mem (c : Bool) : (s.skipIf c).mem = s.mem := rfl
@[simp] theorem State.skipIf_cfg (c : Bool) : (s.skipIf c).cfg = s.cfg := rfl
@[simp] theorem State.skipIf_status (c : Bool) : (s.skipIf c).status = s.status := rfl
@[simp] theorem State.skipIf_rndIn (c : Bool) : (s.skipIf c).rndIn = s.rndIn := rfl
@[simp] theorem State.skipIf_draws (c : Bool) : (s.skipIf c).draws = s.draws := rfl

/-! ## `storeAtIndex` -/

@[simp] theorem State.storeAtIndex_v (l : List Byte) : (s.storeAtIndex l).v = s.v := rfl
@[simp] theorem State.storeAtIndex_i (l : List Byte) : (s.storeAtIndex l).i = s.i := rfl
@[simp] theorem State.storeAtIndex_pc (l : List Byte) : (s.storeAtIndex l).pc = s.pc := rfl
@[simp] theorem State.storeAtIndex_sp (l : List Byte) : (s.storeAtIndex l).sp = s.sp := rfl
@[simp] theorem State.storeAtIndex_stack (l : List Byte) : (s.storeAtIndex l).stack = s.stack := rfl
@[simp] theorem State.storeAtIndex_dt (l : List Byte) : (s.storeAtIndex l).dt = s.dt := rfl
@[simp] theorem State.storeAtIndex_st (l : List Byte) : (s.storeAtIndex l).st = s.st := rfl
@[simp] theorem State.storeAtIndex_disp (l : List Byte) : (s.storeAtIndex l).disp = s.disp := rfl
@[simp] theorem State.storeAtIndex_keys (l : List Byte) : (s.storeAtIndex l).keys = s.keys := rfl
@[simp] theorem State.storeAtIndex_mem (l : List Byte) : (s.storeAtIndex l).mem = memWriteAll s.mem (s.indexed 0) l := rfl
@[simp] theorem State.storeAtIndex_cfg (l : List Byte) : (s.storeAtIndex l).cfg = s.cfg := rfl
@[simp] theorem State.storeAtIndex_status (l : List Byte) : (s.storeAtIndex l).status = s.status := rfl
@[simp] theorem State.storeAtIndex_rndIn (l : List Byte) : (s.storeAtIndex l).rndIn = s.rndIn := rfl
@[simp] theorem State.storeAtIndex_draws (l : List Byte) : (s.storeAtIndex l).draws = s.draws := rfl

/-! ## `bumpIndex` -/

@[simp] theorem State.bumpIndex_v (x : Nibble) : (s.bumpIndex x).v = s.v := rfl
@[simp] theorem State.bumpIndex_i (x : Nibble) : (s.bumpIndex x).i = if s.lsIncI then s.i + BitVec.ofNat 16 (x.toNat + 1) else s.i := rfl
@[simp] theorem State.bumpIndex_pc (x : Nibble) : (s.bumpIndex x).pc = s.pc := rfl
@[simp] theorem State.bumpIndex_sp (x : Nibble) : (s.bumpIndex x).sp = s.sp := rfl
@[simp] theorem State.bumpIndex_stack (x : Nibble) : (s.bumpIndex x).stack = s.stack := rfl
@[simp] theorem State.bumpIndex_dt (x : Nibble) : (s.bumpIndex x).dt = s.dt := rfl
@[simp] theorem State.bumpIndex_st (x : Nibble) : (s.bumpIndex x).st = s.st := rfl
@[simp] theorem State.bumpIndex_disp (x : Nibble) : (s.bumpIndex x).disp = s.disp := rfl
@[simp] theorem State.bumpIndex_keys (x : Nibble) : (s.bumpIndex x).keys = s.keys := rfl
@[simp] theorem State.bumpIndex_mem (x : Nibble) : (s.bumpIndex x).mem = s.mem := rfl
@[simp] theorem State.bumpIndex_cfg (x : Nibble) : (s.bumpIndex x).cfg = s.cfg := rfl
@[simp] theorem State.bumpIndex_status (x : Nibble) : (s.bumpIndex x).status = s.status := rfl
@[simp] theorem State.bumpIndex_rndIn (x : Nibble) : (s.bumpIndex x).rndIn = s.rndIn := rfl
@[simp] theorem State.bumpIndex_draws (x : Nibble) : (s.bumpIndex x).draws = s.draws := rfl

/-! ## `drawn` -/

@[simp] theorem State.drawn_v : (s.drawn).v = s.v := rfl
@[simp] theorem State.drawn_i : (s.drawn).i = s.i := rfl
@[simp] theorem State.drawn_pc : (s.drawn).pc = s.pc := rfl
@[simp] theorem State.drawn_sp : (s.drawn).sp = s.sp := rfl
@[simp] theorem State.drawn_stack : (s.drawn).stack = s.stack := rfl
@[simp] theorem State.drawn_dt : (s.drawn).dt = s.dt := rfl
@[simp] theorem State.drawn_st : (s.drawn).st = s.st := rfl
@[simp] theorem State.drawn_disp : (s.drawn).disp = s.disp := rfl
@[simp] theorem State.drawn_keys : (s.drawn).keys = s.keys := rfl
@[simp] theorem State.drawn_mem : (s.drawn).mem = s.mem := rfl
@[simp] theorem State.drawn_cfg : (s.drawn).cfg = s.cfg := rfl
@[simp] theorem State.drawn_status : (s.drawn).status = s.status := rfl
@[simp] theorem State.drawn_rndIn : (s.drawn).rndIn = s.rndIn.tail := rfl
@[simp] theorem State.drawn_draws : (s.drawn).draws = s.draws + 1 := rfl

/-! ## `tick` -/

@[simp] theorem State.tick_v : (s.tick).v = s.v := rfl
@[simp] theorem State.tick_i : (s.tick).i = s.i := rfl
@[simp] theorem State.tick_pc : (s.tick).pc = s.pc := rfl
@[simp] theorem State.tick_sp : (s.tick).sp = s.sp := rfl
@[simp] theorem State.tick_stack : (s.tick).stack = s.stack := rfl
@[simp] theorem State.tick_dt : (s.tick).dt = countDown s.dt := rfl
@[simp] theorem State.tick_st : (s.tick).st = countDown s.st := rfl
@[simp] theorem State.tick_disp : (s.tick).disp = s.disp := rfl
@[simp] theorem State.tick_keys : (s.tick).keys = s.keys := rfl
@[simp] theorem State.tick_mem : (s.tick).mem = s.mem := rfl
@[simp] theorem State.tick_cfg : (s.tick).cfg = s.cfg := rfl
@[simp] theorem State.tick_status : (s.tick).status = s.status := rfl
@[simp] theorem State.tick_rndIn : (s.tick).rndIn = s.rndIn := rfl
@[simp] theorem State.tick_draws : (s.tick).draws = s.draws := rfl

/-! ## `setKey` -/

@[simp] theorem State.setKey_v (k : Nibble) (b : Bool) : (s.setKey k b).v = s.v := rfl
@[simp] theorem State.setKey_i (k : Nibble) (b : Bool) : (s.setKey k b).i = s.i := rfl
@[simp] theorem State.setKey_pc (k : Nibble) (b : Bool) : (s.setKey k b).pc = s.pc := rfl
@[simp] theorem State.setKey_sp (k : Nibble) (b : Bool) : (s.setKey k b).sp = s.sp := rfl
@[simp] theorem State.setKey_stack (k : Nibble) (b : Bool) : (s.setKey k b).stack = s.stack := rfl
@[simp] theorem State.setKey_dt (k : Nibble) (b : Bool) : (s.setKey k b).dt = s.dt := rfl
@[simp] theorem State.setKey_st (k : Nibble) (b : Bool) : (s.setKey k b).st = s.st := rfl
@[simp] theorem State.setKey_disp (k : Nibble) (b : Bool) : (s.setKey k b).disp = s.disp := rfl
@[simp] theorem State.setKey_keys (k : Nibble) (b : Bool) : (s.setKey k b).keys = s.keys.set k.toNat b k.isLt := rfl
@[simp] theorem State.setKey_mem (k : Nibble) (b : Bool) : (s.setKey k b).mem = s.mem := rfl
@[simp] theorem State.setKey_cfg (k : Nibble) (b : Bool) : (s.setKey k b).cfg = s.cfg := rfl
@[simp] theorem State.setKey_status (k : Nibble) (b : Bool) : (s.setKey k b).status = s.status := rfl
@[simp] theorem State.setKey_rndIn (k : Nibble) (b : Bool) : (s.setKey k b).rndIn = s.rndIn := rfl
@[simp] theorem State.setKey_draws (k : Nibble) (b : Bool) : (s.setKey k b).draws = s.draws := rfl

/-! ## `setConfig` -/

@[simp] theorem State.setConfig_v (c : BitVec 2) : (s.setConfig c).v = s.v := rfl
@[simp] theorem State.setConfig_i (c : BitVec 2) : (s.setConfig c).i = s.i := rfl
@[simp] theorem State.setConfig_pc (c : BitVec 2) : (s.setConfig c).pc = s.pc := rfl
@[simp] theorem State.setConfig_sp (c : BitVec 2) : (s.setConfig c).sp = s.sp := rfl
@[simp] theorem State.setConfig_stack (c : BitVec 2) : (s.setConfig c).stack = s.stack := rfl
@[simp] theorem State.setConfig_dt (c : BitVec 2) : (s.setConfig c).dt = s.dt := rfl
@[simp] theorem State.setConfig_st (c : BitVec 2) : (s.setConfig c).st = s.st := rfl
@[simp] theorem State.setConfig_disp (c : BitVec 2) : (s.setConfig c).disp = s.disp := rfl
@[simp] theorem State.setConfig_keys (c : BitVec 2) : (s.setConfig c).keys = s.keys := rfl
@[simp] theorem State.setConfig_mem (c : BitVec 2) : (s.setConfig c).mem = s.mem := rfl
@[simp] theorem State.setConfig_cfg (c : BitVec 2) : (s.setConfig c).cfg = c := rfl
@[simp] theorem State.setConfig_status (c : BitVec 2) : (s.setConfig c).status = s.status := rfl
@[simp] theorem State.setConfig_rndIn (c : BitVec 2) : (s.setConfig c).rndIn = s.rndIn := rfl
@[simp] theorem State.setConfig_draws (c : BitVec 2) : (s.setConfig c).draws = s.draws := rfl

end Sys2Proof.Machine
end

