-- ==== Sys2Proof/Laws/Registers.lean ====
section
/-! SUPPORT. Reading a register after writing one, and what an update of another piece leaves of the registers. -/

namespace Sys2Proof.Machine

variable (s : State)

/-- The value written is the value read, for all 16 registers: none is hard-wired (10_state.md R20). -/
@[simp] theorem State.reg_setReg_self (x : Nibble) (b : Byte) : (s.setReg x b).reg x = b := by
  simp [State.reg, State.setReg]

/-- A write leaves every other register alone. -/
@[simp] theorem State.reg_setReg_ne {x r : Nibble} (b : Byte) (h : r ≠ x) : (s.setReg x b).reg r = s.reg r := by
  have : x.toNat ≠ r.toNat := fun e => h (BitVec.eq_of_toNat_eq e.symm)
  simp [State.reg, State.setReg, this]

/-- A read after a write, in one equation. -/
theorem State.reg_setReg (x r : Nibble) (b : Byte) : (s.setReg x b).reg r = if r = x then b else s.reg r := by
  split
  · subst_vars; simp
  · next h => simp [h]

/-- Registers depend on nothing but the register file. -/
theorem State.reg_congr {s t : State} (h : t.v = s.v) (r : Nibble) : t.reg r = s.reg r := by simp only [State.reg, h]

@[simp] theorem State.reg_jump (p : Word) (r : Nibble) : (s.jump p).reg r = s.reg r := rfl
@[simp] theorem State.reg_skipIf (c : Bool) (r : Nibble) : (s.skipIf c).reg r = s.reg r := rfl
@[simp] theorem State.reg_raise (c : Cause) (r : Nibble) : (s.raise c).reg r = s.reg r := rfl
@[simp] theorem State.reg_advance (r : Nibble) : s.advance.reg r = s.reg r := rfl
@[simp] theorem State.reg_drawn (r : Nibble) : s.drawn.reg r = s.reg r := rfl
@[simp] theorem State.reg_bumpIndex (x r : Nibble) : (s.bumpIndex x).reg r = s.reg r := rfl
@[simp] theorem State.reg_storeAtIndex (l : List Byte) (r : Nibble) : (s.storeAtIndex l).reg r = s.reg r := rfl

/-! ## `setFlagged` (41_register_alu.md R113) -/

/-- The destination ends with the result, `VF` as destination included. -/
@[simp] theorem State.reg_setFlagged_dest (x : Nibble) (c : Bool) (b : Byte) : (s.setFlagged x c b).reg x = b := by
  simp [State.setFlagged]

/-- `VF` ends with the flag where it is not the destination. -/
theorem State.reg_setFlagged_vf {x : Nibble} (c : Bool) (b : Byte) (h : x ≠ vf) :
    (s.setFlagged x c b).reg vf = flagByte c := by
  rw [State.setFlagged, State.reg_setReg_ne _ _ h.symm, State.reg_setReg_self]

/-- Every other register is as it was. -/
theorem State.reg_setFlagged_other {x r : Nibble} (c : Bool) (b : Byte) (hx : r ≠ x) (hv : r ≠ vf) :
    (s.setFlagged x c b).reg r = s.reg r := by
  rw [State.setFlagged, State.reg_setReg_ne _ _ hx, State.reg_setReg_ne _ _ hv]

/-- Nothing but the register file changes. -/
theorem State.setFlagged_eq (x : Nibble) (c : Bool) (b : Byte) :
    s.setFlagged x c b = { s with v := (s.setFlagged x c b).v } := rfl

/-! ## `loadRegs` (42_index_memory.md R145) -/

/-- Nothing but the register file changes. -/
theorem State.loadRegs_eq (n : Nat) : s.loadRegs n = { s with v := (s.loadRegs n).v } := by
  induction n with
  | zero => rfl
  | succ n ih => rw [State.loadRegs, State.setReg, ih]

/-- The first `n` registers hold the bytes at `I` upwards, the others what they held. -/
theorem State.reg_loadRegs {n : Nat} (h : n ≤ 16) (r : Nibble) :
    (s.loadRegs n).reg r = if r.toNat < n then memRead s.mem (s.indexed r.toNat) else s.reg r := by
  induction n with
  | zero => simp [State.loadRegs]
  | succ n ih =>
    rw [State.loadRegs, State.reg_setReg, ih (by omega)]
    have key : r = BitVec.ofNat 4 n ↔ r.toNat = n := by
      rw [← BitVec.toNat_inj, BitVec.toNat_ofNat]; omega
    by_cases hr : r.toNat = n
    · simp [key, hr]
    · have : (r.toNat < n + 1) = (r.toNat < n) := by simp; omega
      simp [key, hr, this]

end Sys2Proof.Machine
end

