-- ==== Sys2Proof/Laws/Stack.lean ====
section
/-! SUPPORT. Everything the call stack's two operations can do (40_control_flow.md R90, R92), and the fields of
`STATUS` after a fault (60_exceptions.md R183). -/

namespace Sys2Proof.Machine

variable {s t : State}

/-- A push with room: the entry at `SP` and `SP` itself, nothing else. -/
theorem State.push_eq_some (h : s.sp.val < 12) (w : Word) :
    s.push w = some { s with stack := s.stack.set s.sp.val w h, sp := ⟨s.sp.val + 1, Nat.succ_lt_succ h⟩ } := by
  rw [State.push, dif_pos h]

/-- A push fails exactly on a full stack. -/
theorem State.push_eq_none (w : Word) : s.push w = none ↔ s.sp = 12 := by
  unfold State.push
  split
  · next h => simp; intro e; rw [e] at h; exact absurd h (by decide)
  · next h => simp; exact Fin.ext (by have := s.sp.isLt; simp; omega)

/-- A pop of a stack in use: the entry below `SP`, and `SP` one less; the entries are as they were. -/
theorem State.pop_eq_some (h : s.sp.val ≠ 0) :
    s.pop = some (s.stack[s.sp.val - 1]'(by omega), { s with sp := ⟨s.sp.val - 1, by omega⟩ }) := by
  rw [State.pop, dif_neg h]

/-- A pop fails exactly on an empty stack. -/
theorem State.pop_eq_none : s.pop = none ↔ s.sp = 0 := by
  unfold State.pop
  split
  · next h => simp; exact Fin.ext h
  · next h => simp; intro e; exact h (by rw [e]; rfl)

/-! ## `STATUS` -/

theorem status_fields (l : Bool) (c : BitVec 2) (f : Bool) :
    (statusWord l c f).getLsbD 0 = f ∧ (statusWord l c f).extractLsb' 1 2 = c ∧ (statusWord l c f).getLsbD 3 = l := by
  revert c; cases l <;> cases f <;> decide

@[simp] theorem State.faulted_raise (c : Cause) : (s.raise c).faulted = true := (status_fields _ _ _).1
@[simp] theorem State.cause_raise (c : Cause) : (s.raise c).cause = c.code := (status_fields _ _ _).2.1
@[simp] theorem State.isLoaded_raise (c : Cause) : (s.raise c).isLoaded = s.isLoaded := (status_fields _ _ _).2.2

/-- The fields of `STATUS` depend on nothing else. -/
theorem State.status_congr (h : t.status = s.status) :
    t.faulted = s.faulted ∧ t.cause = s.cause ∧ t.isLoaded = s.isLoaded := by
  simp only [State.faulted, State.cause, State.isLoaded, h, and_self]

/-- Adding the fetch's two and taking them off again (60_exceptions.md R183). -/
@[simp] theorem State.pcInsn_advance : s.advance.pcInsn = s.pc := by
  simp [State.pcInsn]

end Sys2Proof.Machine
end

