-- ==== Sys2Proof/Laws/Exec.lean ====
section
/-! SUPPORT. What each meaning with several endings can do, said once: later proofs cite these instead of unfolding. -/

namespace Sys2Proof.Machine

variable {s t : State}

/-- `CALL` on a stack with room. -/
theorem execCall_room (nnn : Imm12) (h : s.sp.val < 12) :
    execCall nnn s = .next { s with
      stack := s.stack.set s.sp.val s.pc h
      sp := ⟨s.sp.val + 1, Nat.succ_lt_succ h⟩
      pc := nnn.setWidth 16 } := by
  rw [execCall, State.push_eq_some h]; rfl

/-- `CALL` on a full stack. -/
theorem execCall_full (nnn : Imm12) (h : s.sp = 12) : execCall nnn s = .next (s.raise .stackOverflow) := by
  rw [execCall, (State.push_eq_none _).mpr h]

/-- `RET` with an entry in use. -/
theorem execRet_used (h : s.sp.val ≠ 0) :
    execRet s = .next { s with pc := s.stack[s.sp.val - 1]'(by omega), sp := ⟨s.sp.val - 1, by omega⟩ } := by
  rw [execRet, State.pop_eq_some h]; rfl

/-- `RET` on an empty stack. -/
theorem execRet_empty (h : s.sp = 0) : execRet s = .next (s.raise .stackUnderflow) := by
  rw [execRet, State.pop_eq_none.mpr h]

/-- `LD Vx, K` with a key found. -/
theorem execLdVxK_some (x : Nibble) {k : Nibble} (h : s.firstKey = some k) :
    execLdVxK x s = .next (s.setReg x (k.setWidth 8)) := by
  rw [execLdVxK, h]

/-- `LD Vx, K` with none. -/
theorem execLdVxK_none (x : Nibble) (h : s.firstKey = none) : execLdVxK x s = .next (s.jump s.pcInsn) := by
  rw [execLdVxK, h]

/-- Every instruction answers a next state: nothing but the stack faults is exceptional, and those are states
(60_exceptions.md R184). -/
theorem exec_next (i : Instr) (s : State) : ∃ t, exec i s = .next t := by
  cases i with
  | ret =>
    by_cases h : s.sp.val = 0
    · exact ⟨_, execRet_empty (Fin.ext h)⟩
    · exact ⟨_, execRet_used h⟩
  | call nnn =>
    by_cases h : s.sp.val < 12
    · exact ⟨_, execCall_room nnn h⟩
    · exact ⟨_, execCall_full nnn (Fin.ext (by have := s.sp.isLt; simp; omega))⟩
  | ldVxK x =>
    cases h : s.firstKey with
    | some k => exact ⟨_, execLdVxK_some x h⟩
    | none => exact ⟨_, execLdVxK_none x h⟩
  | _ => exact ⟨_, rfl⟩

/-! ## `step`: its four cases (30_encoding.md R79) -/

theorem step_notLoaded (h : s.isLoaded = false) : step s = .refused .notLoaded := by rw [step, if_pos h]

theorem step_faulted (hl : s.isLoaded = true) (hf : s.faulted = true) : step s = .next s := by
  rw [step, if_neg (by simp [hl]), if_pos hf]

theorem step_instr (hl : s.isLoaded = true) (hf : s.faulted = false) {i : Instr} (h : decode s.fetch = .instr i) :
    step s = exec i s.advance := by
  simp only [step, hl, hf, h, Bool.true_eq_false, Bool.false_eq_true, if_false]

theorem step_miss (hl : s.isLoaded = true) (hf : s.faulted = false) {r : Reject} (h : decode s.fetch = .rejected r) :
    step s = .next s.advance := by
  simp only [step, hl, hf, h, Bool.true_eq_false, Bool.false_eq_true, if_false, execDispatchMiss]

/-- Everything a step that answers a next state can have done. -/
theorem step_cases (h : step s = .next t) :
    s.isLoaded = true ∧
      ((s.faulted = true ∧ t = s)
        ∨ (s.faulted = false ∧ ∃ i, decode s.fetch = .instr i ∧ exec i s.advance = .next t)
        ∨ (s.faulted = false ∧ ∃ r, decode s.fetch = .rejected r ∧ t = s.advance)) := by
  cases hl : s.isLoaded with
  | false => rw [step_notLoaded hl] at h; exact absurd h (by simp)
  | true =>
    refine ⟨rfl, ?_⟩
    cases hf : s.faulted with
    | true => rw [step_faulted hl hf] at h; exact .inl ⟨rfl, by simpa using h.symm⟩
    | false =>
      cases hd : decode s.fetch with
      | instr i => rw [step_instr hl hf hd] at h; exact .inr (.inl ⟨rfl, i, rfl, h⟩)
      | rejected r => rw [step_miss hl hf hd] at h; exact .inr (.inr ⟨rfl, r, rfl, by simpa using h.symm⟩)

/-! ## Placing an instruction -/

theorem State.madeReady_running (s : State) : s.madeReady.isLoaded = true ∧ s.madeReady.faulted = false := by
  unfold State.madeReady
  split
  · next h => simpa using h
  · exact ⟨(status_fields true 0 false).2.2, (status_fields true 0 false).1⟩

/-- The next fetch reads the opcode placed at `PC`. -/
theorem State.fetch_withOpcodeAtPc (hm : Memory.wf s.mem = true) (op : Word) : (s.withOpcodeAtPc op).fetch = op := by
  have hlen : (opcodeBytes op).length ≤ Config.memSize := by simp [opcodeBytes, Config.memSize]
  have h0 := memRead_memWriteAll_inside (opcodeBytes op) hm s.pc.toNat 0 (by simp [opcodeBytes]) hlen
  have h1 := memRead_memWriteAll_inside (opcodeBytes op) hm s.pc.toNat 1 (by simp [opcodeBytes]) hlen
  rw [Nat.add_zero] at h0
  simp only [State.fetch, State.withOpcodeAtPc]
  rw [h0, h1]
  exact opcodeOf_extract op

end Sys2Proof.Machine
end

