-- ==== Sys2Proof/Laws/Frames.lean ====
section
/-! SUPPORT. What claims over every instruction and over the host's operations need, said once: the completion forms of
Safety.lean, what `exec` can do to `STATUS` and to the memory's form, and what an operation of the host can do. -/

namespace Sys2Proof.Machine

variable {s t : State} {i : Instr}

/-! ## Completion forms -/

theorem sameExcept_regs (v : Vector Byte 16) : SameExcept [.regs] s { s with v := v } := by
  intro p hp
  cases p <;> simp_all [Unchanged]

theorem completesWriting_of_setReg {x : Nibble} {b : Byte} (h : exec i s = .next (s.setReg x b)) :
    CompletesWriting i s x b :=
  ⟨_, h, by simp, fun r hr => by simp [hr], sameExcept_regs _⟩

theorem completesFlagged_of_setFlagged {x : Nibble} {c : Bool} {b : Byte} {result : Byte → Prop} {flag : Prop}
    (h : exec i s = .next (s.setFlagged x c b)) (hr : result b) (hc : c = true ↔ flag) :
    CompletesFlagged i s x result flag := by
  refine ⟨_, h, by simpa, fun hx => ?_, fun r h1 h2 => State.reg_setFlagged_other s c b h1 h2, ?_⟩
  · rw [State.reg_setFlagged_vf s c b hx]
    cases c <;> simp_all [flagByte]
  · rw [State.setFlagged_eq]
    exact sameExcept_regs _

theorem completesSkipping_of_skipIf {c : Bool} {cond : Prop} (h : exec i s = .next (s.skipIf c)) (hc : c = true ↔ cond) :
    CompletesSkipping i s cond := by
  refine ⟨_, h, ?_, ?_, ?_⟩
  · intro hh
    simp [hc.mpr hh]
  · intro hh
    cases c <;> simp_all
  · intro p hp
    cases p <;> simp_all [Unchanged]

/-! ## `STATUS` and the memory's form under `exec` -/

/-- An instruction leaves `STATUS` alone, or it is the `CALL` or `RET` that takes its stack fault. -/
theorem exec_status_cases (h : exec i s = .next t) :
    t.status = s.status
      ∨ (∃ nnn, i = .call nnn ∧ s.sp = 12 ∧ t = s.raise .stackOverflow)
      ∨ (i = .ret ∧ s.sp = 0 ∧ t = s.raise .stackUnderflow) := by
  cases i with
  | ret =>
    by_cases hs : s.sp.val = 0
    · rw [exec, execRet_empty (Fin.ext hs)] at h
      injection h with h; subst h
      exact .inr (.inr ⟨rfl, Fin.ext hs, rfl⟩)
    · rw [exec, execRet_used hs] at h
      injection h with h; subst h
      exact .inl rfl
  | call nnn =>
    by_cases hs : s.sp.val < 12
    · rw [exec, execCall_room nnn hs] at h
      injection h with h; subst h
      exact .inl rfl
    · have e : s.sp = 12 := Fin.ext (by have := s.sp.isLt; simp; omega)
      rw [exec, execCall_full nnn e] at h
      injection h with h; subst h
      exact .inr (.inl ⟨_, rfl, e, rfl⟩)
  | ldVxK x =>
    cases hk : s.firstKey with
    | none =>
      rw [exec, execLdVxK_none x hk] at h
      injection h with h; subst h
      exact .inl rfl
    | some k =>
      rw [exec, execLdVxK_some x hk] at h
      injection h with h; subst h
      exact .inl rfl
  | ldRegs x =>
    injection h with h; subst h
    rw [State.loadRegs_eq]
    exact .inl rfl
  | _ =>
    injection h with h; subst h
    exact .inl rfl

theorem wf_exec (hm : Memory.wf s.mem = true) (h : exec i s = .next t) : Memory.wf t.mem = true := by
  rcases exec_status_cases h with - | ⟨_, rfl, -, rfl⟩ | ⟨rfl, -, rfl⟩
  · cases i with
    | ldB x =>
      injection h with h; subst h
      exact wf_memWriteAll _ hm _
    | stRegs x =>
      injection h with h; subst h
      exact wf_memWriteAll _ hm _
    | ret =>
      by_cases hs : s.sp.val = 0
      · rw [exec, execRet_empty (Fin.ext hs)] at h
        injection h with h; subst h
        exact hm
      · rw [exec, execRet_used hs] at h
        injection h with h; subst h
        exact hm
    | call nnn =>
      by_cases hs : s.sp.val < 12
      · rw [exec, execCall_room nnn hs] at h
        injection h with h; subst h
        exact hm
      · rw [exec, execCall_full nnn (Fin.ext (by have := s.sp.isLt; simp; omega))] at h
        injection h with h; subst h
        exact hm
    | ldVxK x =>
      cases hk : s.firstKey with
      | none =>
        rw [exec, execLdVxK_none x hk] at h
        injection h with h; subst h
        exact hm
      | some k =>
        rw [exec, execLdVxK_some x hk] at h
        injection h with h; subst h
        exact hm
    | ldRegs x =>
      injection h with h; subst h
      rw [State.bumpIndex_mem, State.loadRegs_eq]
      exact hm
    | _ =>
      injection h with h; subst h
      exact hm
  · exact hm
  · exact hm

/-! ## The host's operations -/

theorem toNat_countDown (b : Byte) : (countDown b).toNat = b.toNat - 1 := by
  unfold countDown
  split
  · simp_all
  · have : b.toNat ≠ 0 := fun h => by apply ‹¬ b = 0›; apply BitVec.eq_of_toNat_eq; simpa
    simp [BitVec.toNat_sub]; omega

theorem step_of_perform_step {rnd : Byte} {r : Reply} (h : perform (.step rnd) s = .next (t, r)) :
    step { s with rndIn := [rnd] } = .next t := by
  rw [perform, stepWith] at h
  cases hs : step { s with rndIn := [rnd] } with
  | next u => rw [hs] at h; simp [withReply] at h; rw [h.1]
  | fault f => rw [hs] at h; simp [withReply] at h
  | refused f => rw [hs] at h; simp [withReply] at h

theorem tick_of_perform_tick {r : Reply} (h : perform .tick s = .next (t, r)) : s.isLoaded = true ∧ t = s.tick := by
  rw [perform] at h
  split at h
  · injection h with h; injection h with h1 h2; exact ⟨‹_›, h1.symm⟩
  · cases h

theorem load_cases (image : List Byte) :
    (image.length ≤ 3584 ∧ load image s = .ok (s.loadedWith font image))
      ∨ (3584 < image.length ∧ load image s = .error .tooLarge) := by
  unfold load loadWith
  by_cases h : image.length > Config.maxImage
  · exact .inr ⟨h, if_pos h⟩
  · exact .inl ⟨Nat.not_lt.mp h, if_neg h⟩

theorem wf_loadedMemory (fontTable image : List Byte) : Memory.wf (loadedMemory fontTable image) = true :=
  wf_memWriteAll _ (wf_memWriteAll _ (wf_memWriteAll _ rfl _) _) _

end Sys2Proof.Machine
end

