-- ==== Sys2Proof/Laws/PerInstr.lean ====
section
/-! SUPPORT. One statement for every instruction as syntax, proved a constructor at a time. -/

namespace Sys2Proof.Laws

/-- The pattern and mask 30_encoding.md R69 gives an instruction's row, written out once more from the rule. -/
def matchMask : Instr → Word × Word
  | .cls => (0x00E0, 0xF0FF)
  | .ret => (0x00EE, 0xF0FF)
  | .jp _ => (0x1000, 0xF000)
  | .call _ => (0x2000, 0xF000)
  | .seImm _ _ => (0x3000, 0xF000)
  | .sneImm _ _ => (0x4000, 0xF000)
  | .seReg _ _ => (0x5000, 0xF000)
  | .ldImm _ _ => (0x6000, 0xF000)
  | .addImm _ _ => (0x7000, 0xF000)
  | .ldReg _ _ => (0x8000, 0xF00F)
  | .orReg _ _ => (0x8001, 0xF00F)
  | .andReg _ _ => (0x8002, 0xF00F)
  | .xorReg _ _ => (0x8003, 0xF00F)
  | .addReg _ _ => (0x8004, 0xF00F)
  | .subReg _ _ => (0x8005, 0xF00F)
  | .shr _ _ => (0x8006, 0xF00F)
  | .subnReg _ _ => (0x8007, 0xF00F)
  | .shl _ _ => (0x800E, 0xF00F)
  | .sneReg _ _ => (0x9000, 0xF000)
  | .ldI _ => (0xA000, 0xF000)
  | .jpV0 _ => (0xB000, 0xF000)
  | .rnd _ _ => (0xC000, 0xF000)
  | .drw _ _ _ => (0xD000, 0xF000)
  | .skp _ => (0xE09E, 0xF0FF)
  | .sknp _ => (0xE0A1, 0xF0FF)
  | .ldVxDt _ => (0xF007, 0xF0FF)
  | .ldVxK _ => (0xF00A, 0xF0FF)
  | .ldDtVx _ => (0xF015, 0xF0FF)
  | .ldStVx _ => (0xF018, 0xF0FF)
  | .addI _ => (0xF01E, 0xF0FF)
  | .ldF _ => (0xF029, 0xF0FF)
  | .ldB _ => (0xF033, 0xF0FF)
  | .stRegs _ => (0xF055, 0xF0FF)
  | .ldRegs _ => (0xF065, 0xF0FF)

/-- The encoder's word satisfies `op & mask = match` of the instruction's row (30_encoding.md R69). -/
def EncodeMatches.Statement (i : Instr) : Prop := encode i &&& (matchMask i).2 = (matchMask i).1

namespace EncodeMatches

/-- A word of format `NNN` under the group mask. -/
theorem group_nnn (g : Nibble) (nnn : Imm12) : formNNN g nnn &&& 0xF000#16 = formXNN g 0 0 := by
  rw [and_F000, (fields_formNNN g nnn).1]

/-- A word of format `XNN` under the group mask. -/
theorem group_xnn (g x : Nibble) (nn : Byte) : formXNN g x nn &&& 0xF000#16 = formXNN g 0 0 := by
  rw [and_F000, (fields_formXNN g x nn).1]

/-- A word of format `XYN` under the group mask. -/
theorem group_xyn (g x y n : Nibble) : formXYN g x y n &&& 0xF000#16 = formXNN g 0 0 := by
  rw [and_F000, (fields_formXYN g x y n).1]

/-- A word with a low-byte sub-selector under its mask. -/
theorem sub_byte (g x : Nibble) (nn : Byte) : formXNN g x nn &&& 0xF0FF#16 = formXNN g 0 nn := by
  rw [and_F0FF, (fields_formXNN g x nn).1, (fields_formXNN g x nn).2.2]

/-- A word with a low-nibble sub-selector under its mask. -/
theorem sub_nibble (g x y n : Nibble) : formXYN g x y n &&& 0xF00F#16 = formXYN g 0 0 n := by
  rw [and_F00F, (fields_formXYN g x y n).1, (fields_formXYN g x y n).2.2.2]

theorem cls : Statement .cls := sub_byte _ _ _
theorem ret : Statement .ret := sub_byte _ _ _
theorem jp (nnn : Imm12) : Statement (.jp nnn) := group_nnn _ _
theorem call (nnn : Imm12) : Statement (.call nnn) := group_nnn _ _
theorem seImm (x : Nibble) (nn : Byte) : Statement (.seImm x nn) := group_xnn _ _ _
theorem sneImm (x : Nibble) (nn : Byte) : Statement (.sneImm x nn) := group_xnn _ _ _
theorem seReg (x y : Nibble) : Statement (.seReg x y) := group_xyn _ _ _ _
theorem ldImm (x : Nibble) (nn : Byte) : Statement (.ldImm x nn) := group_xnn _ _ _
theorem addImm (x : Nibble) (nn : Byte) : Statement (.addImm x nn) := group_xnn _ _ _
theorem ldReg (x y : Nibble) : Statement (.ldReg x y) := sub_nibble _ _ _ _
theorem orReg (x y : Nibble) : Statement (.orReg x y) := sub_nibble _ _ _ _
theorem andReg (x y : Nibble) : Statement (.andReg x y) := sub_nibble _ _ _ _
theorem xorReg (x y : Nibble) : Statement (.xorReg x y) := sub_nibble _ _ _ _
theorem addReg (x y : Nibble) : Statement (.addReg x y) := sub_nibble _ _ _ _
theorem subReg (x y : Nibble) : Statement (.subReg x y) := sub_nibble _ _ _ _
theorem shr (x y : Nibble) : Statement (.shr x y) := sub_nibble _ _ _ _
theorem subnReg (x y : Nibble) : Statement (.subnReg x y) := sub_nibble _ _ _ _
theorem shl (x y : Nibble) : Statement (.shl x y) := sub_nibble _ _ _ _
theorem sneReg (x y : Nibble) : Statement (.sneReg x y) := group_xyn _ _ _ _
theorem ldI (nnn : Imm12) : Statement (.ldI nnn) := group_nnn _ _
theorem jpV0 (nnn : Imm12) : Statement (.jpV0 nnn) := group_nnn _ _
theorem rnd (x : Nibble) (nn : Byte) : Statement (.rnd x nn) := group_xnn _ _ _
theorem drw (x y n : Nibble) : Statement (.drw x y n) := group_xyn _ _ _ _
theorem skp (x : Nibble) : Statement (.skp x) := sub_byte _ _ _
theorem sknp (x : Nibble) : Statement (.sknp x) := sub_byte _ _ _
theorem ldVxDt (x : Nibble) : Statement (.ldVxDt x) := sub_byte _ _ _
theorem ldVxK (x : Nibble) : Statement (.ldVxK x) := sub_byte _ _ _
theorem ldDtVx (x : Nibble) : Statement (.ldDtVx x) := sub_byte _ _ _
theorem ldStVx (x : Nibble) : Statement (.ldStVx x) := sub_byte _ _ _
theorem addI (x : Nibble) : Statement (.addI x) := sub_byte _ _ _
theorem ldF (x : Nibble) : Statement (.ldF x) := sub_byte _ _ _
theorem ldB (x : Nibble) : Statement (.ldB x) := sub_byte _ _ _
theorem stRegs (x : Nibble) : Statement (.stRegs x) := sub_byte _ _ _
theorem ldRegs (x : Nibble) : Statement (.ldRegs x) := sub_byte _ _ _

end EncodeMatches

end Sys2Proof.Laws
end

