-- ==== Sys2Proof/Tests/Slice0.lean ====
section
/-! SUPPORT. Tests: words written out from the spec's encodings, the checks of WellFormed.lean, the worked vectors of
95_test_vectors.md (their numbers are in the names), and a state for the hypotheses of every statement that has some. -/

namespace Sys2Proof.Tests

open Sys2Proof Sys2Proof.Machine

/-! ## Helpers -/

/-- The outcome is a next state with the property. -/
def reaches (o : Host.Outcome State Fault Refusal) (p : State → Bool) : Bool :=
  match o with
  | .next t => p t
  | .fault _ => false
  | .refused _ => false

/-- The operation answers a state and a reply with the property. -/
def answers (o : Host.Outcome (State × Reply) Fault Refusal) (p : State → Reply → Bool) : Bool :=
  match o with
  | .next (t, r) => p t r
  | .fault _ => false
  | .refused _ => false

/-- The outcome is the refusal of a core that is not loaded. -/
def refusedNotLoaded (o : Host.Outcome State Fault Refusal) : Bool :=
  match o with
  | .refused e => decide (e = .notLoaded)
  | .next _ => false
  | .fault _ => false

/-- Registers written into the state after reset. -/
def withRegs (l : List (Nibble × Byte)) : State := l.foldl (fun s p => s.setReg p.1 p.2) State.reset

/-- `I = 0x300` and the bytes of a sprite there. -/
def withSprite (bytes : List Byte) (s : State) : State := { s with i := 0x300, mem := memWriteAll s.mem 0x300 bytes }

/-- One Step of `op` placed at `PC`. -/
def ran (op : Word) (s : State) (p : State → Bool) : Bool := reaches (step (s.withOpcodeAtPc op)) p

/-- A state with `SP = n`. -/
def atSp (n : Fin 13) : State := { State.reset with sp := n, pc := 0x400 }

/-- A core that an overflow at 0x400 has halted. -/
def halted : State := { State.reset with sp := 12, pc := 0x400, dt := 5, mem := [(0x400, 0x25)], status := 0b1011 }

/-- A power-on state with values the spec leaves open. -/
def powerOn : State := { State.reset with status := 0, v := Vector.replicate 16 0x55, pc := 0x123 }

/-! ## Decoding: every row, from the encodings of 30_encoding.md R66 and R69 -/

theorem test_decode_group0 :
    decode 0x00E0 = .instr .cls ∧ decode 0x03E0 = .instr .cls ∧ decode 0x00EE = .instr .ret ∧ decode 0x0FEE = .instr .ret := by
  decide

theorem test_decode_jumps :
    decode 0x1ABC = .instr (.jp 0xABC) ∧ decode 0x2210 = .instr (.call 0x210) ∧ decode 0xBFFF = .instr (.jpV0 0xFFF) := by
  decide

theorem test_decode_skips :
    decode 0x3342 = .instr (.seImm 3 0x42) ∧ decode 0x42FF = .instr (.sneImm 2 0xFF)
      ∧ decode 0x5120 = .instr (.seReg 1 2) ∧ decode 0x5121 = .instr (.seReg 1 2)
      ∧ decode 0x9120 = .instr (.sneReg 1 2) ∧ decode 0x912F = .instr (.sneReg 1 2)
      ∧ decode 0xE39E = .instr (.skp 3) ∧ decode 0xE3A1 = .instr (.sknp 3) := by decide

theorem test_decode_immediates :
    decode 0x6F80 = .instr (.ldImm 15 0x80) ∧ decode 0x7101 = .instr (.addImm 1 0x01)
      ∧ decode 0xC30F = .instr (.rnd 3 0x0F) ∧ decode 0xAFFF = .instr (.ldI 0xFFF) := by decide

theorem test_decode_alu :
    decode 0x8120 = .instr (.ldReg 1 2) ∧ decode 0x8121 = .instr (.orReg 1 2) ∧ decode 0x8122 = .instr (.andReg 1 2)
      ∧ decode 0x8123 = .instr (.xorReg 1 2) ∧ decode 0x8124 = .instr (.addReg 1 2)
      ∧ decode 0x8125 = .instr (.subReg 1 2) ∧ decode 0x8126 = .instr (.shr 1 2)
      ∧ decode 0x8127 = .instr (.subnReg 1 2) ∧ decode 0x812E = .instr (.shl 1 2) := by decide

theorem test_decode_draw : decode 0xD125 = .instr (.drw 1 2 5) := by decide

theorem test_decode_groupF :
    decode 0xF507 = .instr (.ldVxDt 5) ∧ decode 0xF50A = .instr (.ldVxK 5) ∧ decode 0xF515 = .instr (.ldDtVx 5)
      ∧ decode 0xF518 = .instr (.ldStVx 5) ∧ decode 0xF51E = .instr (.addI 5) ∧ decode 0xF529 = .instr (.ldF 5)
      ∧ decode 0xF533 = .instr (.ldB 5) ∧ decode 0xF555 = .instr (.stRegs 5) ∧ decode 0xF565 = .instr (.ldRegs 5) := by
  decide

/-- F5: each of these is undefined, and is rejected by name. -/
theorem test_decode_undefined_F5 :
    [0x0000#16, 0x00E1#16, 0x0123#16, 0x8008#16, 0x800F#16, 0xE000#16, 0xF000#16, 0xF0FF#16, 0xFFFF#16].all
      (fun op => decode op == .rejected (.dispatchMiss op)) = true := by decide

theorem test_decode_bytes_high_first :
    decodeBytes [0x12, 0x04, 0xAA] = (.instr (.jp 0x204), [0xAA]) ∧ decodeBytes [0x12] = (.rejected .truncated, [0x12]) := by
  decide

theorem test_decodeTableWord :
    decodeTableWord 16 0xD125 = some (.drw 1 2 5) ∧ decodeTableWord 16 0x8008 = none := by decide

/-- 95_test_vectors.md P1: its first three lines and its image's first six bytes. -/
theorem test_assemble_P1 :
    assemble [.instr (.ldImm 0 0), .instr (.ldImm 1 5), .instr (.addReg 0 1)] = [0x60, 0x00, 0x61, 0x05, 0x80, 0x14] := by decide

/-- The spelling of 95_test_vectors.md P2's listing. -/
theorem test_text_P2 :
    instrText (.ldRegs 2) = "LD V2, [I]" ∧ instrText (.call 0x210) = "CALL 0x210" ∧ AsmLine.text (.dw 0) = "DW 0x0000"
      ∧ AsmLine.text (.shrShort 15) = "SHR VF" := by decide

/-! ## WellFormed: a well-formed and an ill-formed term for each check -/

theorem test_instr_wellFormed : Instr.wellFormed (.drw 15 15 15) = true := by decide

theorem test_opcode_defined : Opcode.defined 0x8007 = true ∧ Opcode.defined 0x8008 = false := by decide

theorem test_rows_disjoint : rows.Pairwise (fun r r' => r.disjoint r' = true) := by decide

theorem test_overlap_refused :
    Row.disjoint ⟨"A", 0x8000#16, 0xF000#16, fun _ => .cls⟩ ⟨"B", 0x8004#16, 0xF00F#16, fun _ => .ret⟩ = false := by decide

theorem test_rows_wellFormed : rows.all Row.wellFormed = true ∧ rows.length = 34 := by decide

theorem test_pattern_outside_mask_refused : Row.wellFormed ⟨"A", 0x8001#16, 0xF000#16, fun _ => .cls⟩ = false := by decide

theorem test_image_fits_W2 :
    Image.fits (List.replicate 3584 0) = true ∧ Image.fits (List.replicate 3585 0) = false := by
  decide +kernel

/-! ## Fetch and dispatch -/

theorem test_fetch_odd_F1 : ran 0x602A { State.reset with pc := 0x201 } (fun t => t.reg 0 == 0x2A && t.pc == 0x203) = true := by
  decide

theorem test_fetch_wraps_F2 : ran 0x61F0 { State.reset with pc := 0xFFF } (fun t => t.reg 1 == 0xF0 && t.pc == 0x1001) = true := by
  decide

theorem test_fetch_font_F3 :
    reaches (step { withRegs [(0, 0x2A)] with pc := 0x1001 }) (fun t => t.pc == 0x1005) = true := by decide

theorem test_miss_F4 : reaches (step State.reset) (fun t => t.pc == 0x202 && t.v == State.reset.v && t.mem == [] && t.status == 0b1000) = true := by decide

theorem test_pc_wraps_F8 : reaches (step { State.reset with pc := 0xFFFE }) (fun t => t.pc == 0) = true := by decide

/-! ## Control transfer -/

theorem test_ret_C1 :
    ran 0x00EE { State.reset with pc := 0x212, sp := 1, stack := State.reset.stack.set 0 0x206 }
      (fun t => t.pc == 0x206 && t.sp == 0 && t.stack[0] == 0x206) = true := by decide

theorem test_ret_empty_C2 :
    ran 0x00EE { State.reset with pc := 0x300 } (fun t => t.status == 0b1101 && t.pc == 0x300 && t.sp == 0) = true := by decide

theorem test_jp_C4 : ran 0x1201 State.reset (fun t => t.pc == 0x201) = true := by decide

theorem test_call_C6 :
    ran 0x2500 (atSp 11) (fun t => t.stack[11] == 0x402 && t.sp == 12 && t.pc == 0x500) = true := by decide

theorem test_call_full_C7 :
    ran 0x2500 (atSp 12) (fun t => t.status == 0b1011 && t.pc == 0x400 && t.sp == 12 && t.stack == State.reset.stack) = true := by
  decide

theorem test_seImm_C9 : ran 0x3F01 (withRegs [(15, 1)]) (fun t => t.pc == 0x204) = true := by decide

theorem test_sneImm_C10 : ran 0x42FF (withRegs [(2, 0xFF)]) (fun t => t.pc == 0x202) = true := by decide

theorem test_skips_W9 :
    (ran 0x3342 (withRegs [(3, 0x42)]) (fun t => t.pc == 0x204) && ran 0x3343 (withRegs [(3, 0x42)]) (fun t => t.pc == 0x202)
      && ran 0x4343 (withRegs [(3, 0x42)]) (fun t => t.pc == 0x204)) = true := by decide

theorem test_seReg_F7 : ran 0x5121 (withRegs [(1, 9), (2, 9)]) (fun t => t.pc == 0x204) = true := by decide

theorem test_sneReg_C13 : ran 0x912F (withRegs [(1, 3), (2, 4)]) (fun t => t.pc == 0x204) = true := by decide

theorem test_jpV0_C14 : ran 0xBFFF (withRegs [(0, 0xFF)]) (fun t => t.pc == 0x10FE) = true := by decide

theorem test_jpV0_C15 : ran 0xB250 (withRegs [(5, 0x40)]) (fun t => t.pc == 0x250) = true := by decide

/-! ## Register loads and the ALU -/

theorem test_ldImm_A1 : ran 0x6F80 State.reset (fun t => t.reg 15 == 0x80) = true := by decide

theorem test_addImm_A2 : ran 0x7101 (withRegs [(1, 0xFF)]) (fun t => t.reg 1 == 0 && t.reg 15 == 0) = true := by decide

theorem test_ldReg_A4 : ran 0x8120 (withRegs [(2, 0x33)]) (fun t => t.reg 1 == 0x33) = true := by decide

theorem test_orReg_A5 :
    ran 0x8011 (withRegs [(0, 0xF0), (1, 0x0F), (15, 7)]) (fun t => t.reg 0 == 0xFF && t.reg 15 == 7) = true := by decide

theorem test_andReg_A6 : ran 0x8012 (withRegs [(0, 0xF0), (1, 0x3C)]) (fun t => t.reg 0 == 0x30) = true := by decide

theorem test_xorReg_A7 : ran 0x8013 (withRegs [(0, 0xF0), (1, 0x3C)]) (fun t => t.reg 0 == 0xCC) = true := by decide

theorem test_addReg_W3 : ran 0x8124 (withRegs [(1, 250), (2, 10)]) (fun t => t.reg 1 == 4 && t.reg 15 == 1) = true := by decide

theorem test_addReg_A11 : ran 0x8F14 (withRegs [(15, 0xFA), (1, 0x0A)]) (fun t => t.reg 15 == 4) = true := by decide

theorem test_subReg_W5 : ran 0x8125 (withRegs [(1, 5), (2, 10)]) (fun t => t.reg 1 == 0xFB && t.reg 15 == 0) = true := by decide

theorem test_subReg_equal_A13 : ran 0x8125 (withRegs [(1, 7), (2, 7)]) (fun t => t.reg 1 == 0 && t.reg 15 == 1) = true := by
  decide

theorem test_subnReg_A15 : ran 0x8017 (withRegs [(0, 10), (1, 5)]) (fun t => t.reg 0 == 0xFB && t.reg 15 == 0) = true := by
  decide

theorem test_shr_A18 : ran 0x8016 (withRegs [(0, 5), (1, 0xFF)]) (fun t => t.reg 0 == 2 && t.reg 15 == 1) = true := by decide

theorem test_shr_vy_A19 :
    ran 0x8016 { withRegs [(0, 5), (1, 0xFE)] with cfg := 1 }
      (fun t => t.reg 0 == 0x7F && t.reg 15 == 0 && t.reg 1 == 0xFE) = true := by decide

theorem test_shl_A21 : ran 0x800E (withRegs [(0, 0x81)]) (fun t => t.reg 0 == 2 && t.reg 15 == 1) = true := by decide

theorem test_shl_vy_A23 :
    ran 0x801E { withRegs [(1, 0x80)] with cfg := 1 } (fun t => t.reg 0 == 0 && t.reg 15 == 1) = true := by decide

theorem test_rnd_A24 : answers (perform (.step 0xA7) (State.reset.withOpcodeAtPc 0xC30F)) (fun t _ => t.reg 3 == 7) = true := by
  decide

/-! ## Index and memory -/

theorem test_ldI_M1 : ran 0xAFFF State.reset (fun t => t.i == 0x0FFF) = true := by decide

theorem test_addI_M3 : ran 0xF01E { withRegs [(0, 2)] with i := 0xFFFF } (fun t => t.i == 1 && t.reg 15 == 0) = true := by decide

theorem test_ldF_M5 : ran 0xF229 (withRegs [(2, 0x1A)]) (fun t => t.i == 0x32) = true := by decide

theorem test_ldB_M8 :
    ran 0xF033 { withRegs [(0, 255)] with i := 0x300 }
      (fun t => memRead t.mem 0x300 == 2 && memRead t.mem 0x301 == 5 && memRead t.mem 0x302 == 5) = true := by decide

theorem test_ldB_wraps_M9 :
    ran 0xF033 { withRegs [(0, 100)] with i := 0xFFF }
      (fun t => memRead t.mem 0xFFF == 1 && memRead t.mem 0 == 0 && memRead t.mem 1 == 0) = true := by decide

theorem test_stRegs_M14 :
    ran 0xF355 { withRegs [(0, 1), (1, 2), (2, 3), (3, 4)] with i := 0xFFE }
      (fun t => memRead t.mem 0xFFE == 1 && memRead t.mem 0xFFF == 2 && memRead t.mem 0 == 3 && memRead t.mem 1 == 4
        && t.i == 0xFFE) = true := by decide

theorem test_stRegs_M11 :
    ran 0xFF55 { withRegs [(0, 9), (15, 7)] with i := 0x400, cfg := 2 }
      (fun t => memRead t.mem 0x400 == 9 && memRead t.mem 0x40F == 7 && t.i == 0x410) = true := by decide

theorem test_ldRegs_M13 :
    ran 0xF265 { withSprite [2, 5, 4] State.reset with cfg := 2 }
      (fun t => t.reg 0 == 2 && t.reg 1 == 5 && t.reg 2 == 4 && t.i == 0x303) = true := by decide

/-! ## Display, keys, timers -/

theorem test_cls_F6 :
    ran 0x03E0 { State.reset with disp := flipPixel clearDisplay 31 63 } (fun t => !pixelAt t.disp 31 63 && t.pc == 0x202)
      = true := by decide

theorem test_drw_clip_W8 :
    ran 0xD121 (withSprite [0xFF] (withRegs [(1, 62)]))
      (fun t => pixelAt t.disp 0 62 && pixelAt t.disp 0 63 && !pixelAt t.disp 0 61 && !pixelAt t.disp 0 0 && !pixelAt t.disp 1 0
        && t.reg 15 == 0) = true := by decide

theorem test_drw_collision_D5 :
    ran 0xD121 { withSprite [0xC0] State.reset with disp := flipPixel clearDisplay 0 1 }
      (fun t => pixelAt t.disp 0 0 && !pixelAt t.disp 0 1 && t.reg 15 == 1) = true := by decide

theorem test_skp_D8 : ran 0xE39E ((withRegs [(3, 0x17)]).setKey 7 true) (fun t => t.pc == 0x204) = true := by decide

theorem test_sknp_D9 : ran 0xE3A1 ((withRegs [(3, 7)]).setKey 7 true) (fun t => t.pc == 0x202) = true := by decide

theorem test_ldVxDt_D10 : ran 0xF507 { State.reset with dt := 0x3C } (fun t => t.reg 5 == 0x3C && t.dt == 0x3C) = true := by
  decide

theorem test_ldVxK_D12 :
    ran 0xF10A { (State.reset.setKey 9 true).setKey 3 true with pc := 0x220 } (fun t => t.reg 1 == 3 && t.pc == 0x222) = true := by
  decide

theorem test_ldVxK_none_D13 : ran 0xF10A { State.reset with pc := 0 } (fun t => t.pc == 0) = true := by decide

theorem test_ldDtVx_W11 : ran 0xF015 (withRegs [(0, 1)]) (fun t => t.dt == 1 && t.st == 0) = true := by decide

theorem test_ldStVx : ran 0xF518 (withRegs [(5, 9)]) (fun t => t.st == 9 && t.dt == 0 && t.sound) = true := by decide

/-! ## Faults and the host -/

theorem test_tick_D14 :
    answers (perform .tick { State.reset with st := 2 }) (fun t r => t.st == 1 && t.dt == 0 && r == .sound true) = true := by decide

theorem test_tick_D15 : answers (perform .tick { State.reset with st := 1 }) (fun t r => t.st == 0 && r == .sound false) = true := by
  decide

theorem test_halted_X1 : reaches (step halted) (fun t => t.pc == 0x400 && t.sp == 12 && t.dt == 5 && t.status == 0b1011) = true := by decide

theorem test_halted_tick_X2 : answers (perform .tick halted) (fun t _ => t.dt == 4) = true := by decide

theorem test_notLoaded_X4 : refusedNotLoaded (step powerOn) = true := by decide

/-- X5 and X8. -/
theorem test_load_X8 :
    answers (perform (.load [0x12, 0x00, 0xAA]) { halted with cfg := 3 })
      (fun t r => t.cfg == 3 && t.status == 0b1000 && r == .ok && memRead t.mem 0x200 == 0x12 && memRead t.mem 0x202 == 0xAA)
      = true := by decide +kernel

/-! ## The interface: a table word runs as the first instruction after reset -/

theorem test_withFetchWord_runs :
    reaches (step (State.reset.withFetchWord 16 0x6F80)) (fun t => t.reg 15 == 0x80 && t.pc == 0x202) = true := by decide

theorem test_withFetchWord_restarts : reaches (step (halted.withFetchWord 16 0x00E0)) (fun t => t.pc == 0x402) = true := by
  decide

/-! ## Witnesses: for each statement with hypotheses, states and operands that meet them together -/

/-- `op` at `PC` in a core that runs. -/
def ready (op : Word) : State := State.reset.withOpcodeAtPc op

theorem ready_running (op : Word) : (ready op).Running :=
  ⟨(by decide : (0b1000#4).getLsbD 3 = true), (by decide : (0b1000#4).getLsbD 0 = false)⟩

theorem halted_inv : Inv halted := ⟨by decide, by decide, by decide, by decide, by decide, by decide⟩

theorem atSp_inv : Inv (atSp 12) := ⟨by decide, by decide, by decide, by decide, by decide, by decide⟩

theorem halted_names_call : FaultNamesInstruction halted := fun _ => ⟨fun _ => ⟨0x500, by decide⟩, fun h => absurd h (by decide)⟩

theorem witness_DecodedWordEncodesBack : decode 0x0FEE = .instr .ret ∧ decode 0x912F = .instr (.sneReg 1 2) := by decide

/-- The second clause: a row of the map that selects an opcode, with every free bit set. -/
theorem witness_DecodeFollowsOpcodeMap :
    ∃ r ∈ rows, r.selects 0x8FF7 = true :=
  ⟨⟨"SUBN_Vx__Vy", 0x8007#16, 0xF00F#16, fun f => .subnReg f.x f.y⟩, by simp [rows, rowsMid, rowsLow, rowsHigh], by decide⟩

theorem witness_WordsCanBeWrittenAndAssembled :
    decode 0x0FEE = .instr .ret ∧ decode 0x8008 = .rejected (.dispatchMiss 0x8008) := by decide

theorem witness_StepRunsDecodedInstruction :
    (ready 0xD125).Running
      ∧ decode (memRead (ready 0xD125).mem 0x200 ++ memRead (ready 0xD125).mem 0x201) = .instr (.drw 1 2 5) :=
  ⟨ready_running _, by decide⟩

theorem witness_DispatchMissIsNoop :
    (ready 0x8008).Running
      ∧ decode (memRead (ready 0x8008).mem 0x200 ++ memRead (ready 0x8008).mem 0x201) = .rejected (.dispatchMiss 0x8008) :=
  ⟨ready_running _, by decide⟩

theorem witness_StepStopsExactlyBeforeLoad : powerOn.isLoaded = false ∧ halted.isLoaded = true ∧ (ready 0).isLoaded = true := by
  decide

/-- The last clause's two sides: a Load that fits and one that does not are both answered. -/
theorem witness_FaultedCoreStaysHalted :
    halted.isLoaded = true ∧ halted.faulted = true
      ∧ (∃ t r, perform (.load []) halted = .next (t, r)) ∧ ∃ t r, perform (.load (List.replicate 3585 0)) halted = .next (t, r) :=
  ⟨by decide, by decide, ⟨_, _, rfl⟩, ⟨halted, .loadError .tooLarge, by
    simp only [perform, load, loadWith, List.length_replicate]; rw [if_pos (by decide)]⟩⟩

/-- A Step that takes the fault, from a state with the invariant. -/
theorem witness_StepKeepsInvariant : Inv (atSp 12) ∧ ran 0x2500 (atSp 12) State.faulted = true := ⟨atSp_inv, by decide⟩

theorem witness_HostOperationsKeepInvariant : Inv halted ∧ ∃ t r, perform .tick halted = .next (t, r) :=
  ⟨halted_inv, _, _, rfl⟩

theorem witness_FaultAddressNamesCallOrRet :
    FaultNamesInstruction halted ∧ step halted = .next halted ∧ halted.faulted = true ∧ ∃ t r, perform .tick halted = .next (t, r) :=
  ⟨halted_names_call, rfl, by decide, _, _, rfl⟩

theorem witness_CallPushesReturnAddress : (atSp 0).sp.val < 12 ∧ (atSp 11).sp.val < 12 := by decide

theorem witness_CallOnFullStackFaults : (atSp 12).sp.val = 12 := by decide

theorem witness_ReturnPopsAddress : 0 < (atSp 1).sp.val ∧ 0 < (atSp 12).sp.val ∧ 11 + 1 = (atSp 12).sp.val := by decide

theorem witness_ReturnOnEmptyStackFaults : (atSp 0).sp.val = 0 := by decide

/-- A `CALL 0x210` that pushes the last free entry, and a `RET` at 0x210. -/
theorem witness_CallThenReturnResumes :
    let s := { ready 0x2210 with sp := 11 }
    ∃ t u : State, s.Running ∧ s.sp.val < 12 ∧ decode s.fetch = .instr (.call 0x210) ∧ step s = .next t
      ∧ u.Running ∧ u.sp = t.sp ∧ u.stack = t.stack ∧ decode u.fetch = .instr .ret :=
  ⟨{ ready 0x2210 with pc := 0x210, sp := 12, stack := State.reset.stack.set 11 0x202 },
    { ready 0x00EE with sp := 12, stack := State.reset.stack.set 11 0x202 },
    ⟨by decide, by decide⟩, by decide, by decide, rfl, ⟨by decide, by decide⟩, rfl, rfl, by decide⟩

/-- For each of the six skips a state where the condition holds and one where it does not. -/
theorem witness_SkipsAddTwoMore :
    ((ready 0x3300).Running ∧ decode (ready 0x3300).fetch = .instr (.seImm 3 0) ∧ (ready 0x3300).reg 3 = 0)
    ∧ ((ready 0x33FF).Running ∧ decode (ready 0x33FF).fetch = .instr (.seImm 3 0xFF) ∧ (ready 0x33FF).reg 3 ≠ 0xFF)
    ∧ ((ready 0x4300).Running ∧ decode (ready 0x4300).fetch = .instr (.sneImm 3 0) ∧ ¬ (ready 0x4300).reg 3 ≠ 0)
    ∧ ((ready 0x43FF).Running ∧ decode (ready 0x43FF).fetch = .instr (.sneImm 3 0xFF) ∧ (ready 0x43FF).reg 3 ≠ 0xFF) :=
  ⟨⟨ready_running _, by decide, by decide⟩, ⟨ready_running _, by decide, by decide⟩,
    ⟨ready_running _, by decide, by decide⟩, ⟨ready_running _, by decide, by decide⟩⟩

theorem witness_SkipsAddTwoMore_registers :
    ((ready 0x512F).Running ∧ decode (ready 0x512F).fetch = .instr (.seReg 1 2) ∧ (ready 0x512F).reg 1 = (ready 0x512F).reg 2)
    ∧ (((ready 0x5120).setReg 1 9).Running ∧ decode ((ready 0x5120).setReg 1 9).fetch = .instr (.seReg 1 2)
      ∧ ((ready 0x5120).setReg 1 9).reg 1 ≠ ((ready 0x5120).setReg 1 9).reg 2)
    ∧ (((ready 0x9120).setReg 1 9).Running ∧ decode ((ready 0x9120).setReg 1 9).fetch = .instr (.sneReg 1 2)
      ∧ ((ready 0x9120).setReg 1 9).reg 1 ≠ ((ready 0x9120).setReg 1 9).reg 2)
    ∧ ((ready 0x9120).Running ∧ decode (ready 0x9120).fetch = .instr (.sneReg 1 2)
      ∧ ¬ (ready 0x9120).reg 1 ≠ (ready 0x9120).reg 2) :=
  ⟨⟨ready_running _, by decide, by decide⟩, ⟨⟨by decide, by decide⟩, by decide, by decide⟩,
    ⟨⟨by decide, by decide⟩, by decide, by decide⟩, ⟨ready_running _, by decide, by decide⟩⟩

theorem witness_SkipsAddTwoMore_keys :
    (((ready 0xE39E).setKey 0 true).Running ∧ decode ((ready 0xE39E).setKey 0 true).fetch = .instr (.skp 3)
      ∧ ((ready 0xE39E).setKey 0 true).key 0 = true)
    ∧ ((ready 0xE39E).Running ∧ decode (ready 0xE39E).fetch = .instr (.skp 3) ∧ ¬ (ready 0xE39E).key 0 = true)
    ∧ ((ready 0xE3A1).Running ∧ decode (ready 0xE3A1).fetch = .instr (.sknp 3) ∧ (ready 0xE3A1).key 0 = false)
    ∧ (((ready 0xE3A1).setKey 0 true).Running ∧ decode ((ready 0xE3A1).setKey 0 true).fetch = .instr (.sknp 3)
      ∧ ¬ ((ready 0xE3A1).setKey 0 true).key 0 = false) :=
  ⟨⟨⟨by decide, by decide⟩, by decide, by decide⟩, ⟨ready_running _, by decide, by decide⟩,
    ⟨ready_running _, by decide, by decide⟩, ⟨⟨by decide, by decide⟩, by decide, by decide⟩⟩

/-- `VF` as destination and another register, with the flag's condition true and false. -/
theorem witness_AddCarriesIntoVf :
    (15 : Nibble) = vf ∧ (1 : Nibble) ≠ vf
      ∧ ((withRegs [(1, 0xFF), (2, 1)]).reg 1).toNat + ((withRegs [(1, 0xFF), (2, 1)]).reg 2).toNat > 255
      ∧ ¬ ((withRegs [(1, 0xFE), (2, 1)]).reg 1).toNat + ((withRegs [(1, 0xFE), (2, 1)]).reg 2).toNat > 255 := by decide

/-- Equal operands do not borrow; one less does. -/
theorem witness_SubtractionsFlagNoBorrow :
    (1 : Nibble) ≠ vf ∧ ((withRegs [(1, 7), (2, 7)]).reg 1).toNat ≥ ((withRegs [(1, 7), (2, 7)]).reg 2).toNat
      ∧ ¬ ((withRegs [(1, 6), (2, 7)]).reg 1).toNat ≥ ((withRegs [(1, 6), (2, 7)]).reg 2).toNat := by decide

theorem witness_ShiftsMoveOneBitOut :
    (0x81 : Byte) = (if (withRegs [(1, 0x81)]).cfg.getLsbD 0 then (withRegs [(1, 0x81)]).reg 2 else (withRegs [(1, 0x81)]).reg 1)
      ∧ (let s := { withRegs [(2, 0x7E)] with cfg := 1 }
        (0x7E : Byte) = (if s.cfg.getLsbD 0 then s.reg 2 else s.reg 1)) := by decide

theorem witness_RndMasksTheDraw :
    ({ State.reset with rndIn := [0xA7, 1] } : State).rndIn = 0xA7 :: [1] ∧ (ready 0xC30F).Running
      ∧ decode (ready 0xC30F).fetch = .instr (.rnd 3 0x0F) :=
  ⟨rfl, ready_running _, by decide⟩

theorem witness_DrawsAreSeenByRndOnly : ∀ x nn, Instr.drw 1 2 5 ≠ .rnd x nn := by intro x nn h; cases h

/-- The statements about stores: memory in its canonical form, empty and not. -/
theorem witness_storing : Memory.wf (atSp 0).mem = true ∧ Memory.wf (withSprite [1, 2, 3] State.reset).mem = true := by decide

/-- BCD at the end of memory: 0xFFE and 2 lie outside the three bytes at 0xFFF, 0 and 1. -/
theorem witness_BcdDigitsStored :
    Memory.wf State.reset.mem = true
      ∧ ∀ a ∈ [0xFFE, 2], ∀ k < 3, ((0xFFF : Word).toNat + k) % 4096 ≠ a % 4096 := by decide

/-- A dump of all 16 registers at 0xFF8: 0xFF7 and 8 lie outside; `V[0]` and `V[15]` are among those stored. -/
theorem witness_RegisterDumpStores :
    Memory.wf State.reset.mem = true ∧ (0 : Nibble).toNat ≤ (15 : Nibble).toNat ∧ (15 : Nibble).toNat ≤ (15 : Nibble).toNat
      ∧ ∀ a ∈ [0xFF7, 8], ∀ k ≤ (15 : Nibble).toNat, ((0xFF8 : Word).toNat + k) % 4096 ≠ a % 4096 := by decide

/-- A load of `V[0]` alone: register 0 is inside, register 1 outside. -/
theorem witness_RegisterLoadReads : (0 : Nibble).toNat ≤ (0 : Nibble).toNat ∧ (0 : Nibble).toNat < (1 : Nibble).toNat := by decide

theorem witness_DumpThenLoadGivesRegistersBack :
    ∃ t t' : State, exec (.stRegs 15) { State.reset with cfg := 2 } = .next t ∧ t'.mem = t.mem ∧ t'.i = State.reset.i
      ∧ Memory.wf State.reset.mem = true :=
  ⟨_, { State.reset with mem := memWriteAll [] 0 (List.replicate 16 0) }, rfl, rfl, rfl, rfl⟩

/-- Two registers stored at 0xFFF and 0, fetched from logical address 0x1FFF. -/
theorem witness_StoreIsSeenByFetch :
    ∃ t : State, Memory.wf State.reset.mem = true ∧ exec (.stRegs 1) { withRegs [(0, 0x12), (1, 0x34)] with i := 0xFFF } = .next t
      ∧ 0 < (1 : Nibble).toNat ∧ (0x1FFF : Word).toNat % 4096 = ((0xFFF : Word).toNat + 0) % 4096 :=
  ⟨_, rfl, rfl, by decide, by decide⟩

/-- Two states that differ in `I`, `PC` and a stack entry by multiples of 4096. -/
theorem witness_AddressHighBitsAreInvisible :
    SameUpToAddressWrap { atSp 1 with i := 0x300 }
      { atSp 1 with i := 0xF300, pc := 0x1400, stack := State.reset.stack.set 0 0x1000 } :=
  ⟨rfl, by decide, by decide, by decide⟩

/-- A sprite byte 0xFF at 0x300, drawn at (62, 31): its second column lies in the last column of the display, and a pixel
there is on. -/
theorem witness_DrawTurnsSpriteBitsOver :
    let s : State := { withSprite [0xFF] (withRegs [(1, 126), (2, 63)]) with disp := flipPixel clearDisplay 31 63 }
    62 = (s.reg 1).toNat % 64 ∧ 31 = (s.reg 2).toNat % 32 ∧ SpriteBitOn s 62 31 1 31 63 ∧ pixelAt s.disp 31 63 = true
      ∧ ¬ SpriteBitOn s 62 31 0 31 63 := by
  refine ⟨by decide, by decide, ?_, by decide, ?_⟩ <;> unfold SpriteBitOn <;> decide

theorem witness_DrawTwiceRestoresDisplay : (0 : Nibble) ≠ vf ∧ (14 : Nibble) ≠ vf := by decide

/-- The last key alone, the first among several, and none. -/
theorem witness_KeyWaitTakesLowestKey :
    ((State.reset.setKey 15 true).key 15 = true
      ∧ ∀ j : Nibble, j.toNat < (15 : Nibble).toNat → (State.reset.setKey 15 true).key j = false)
    ∧ (((State.reset.setKey 9 true).setKey 0 true).key 0 = true
      ∧ ∀ j : Nibble, j.toNat < (0 : Nibble).toNat → ((State.reset.setKey 9 true).setKey 0 true).key j = false)
    ∧ ∀ k : Nibble, State.reset.key k = false := by decide

theorem witness_IdleStepsChangeNothing :
    ((ready 0xF50A).Running ∧ decode (ready 0xF50A).fetch = .instr (.ldVxK 5) ∧ ∀ k : Nibble, (ready 0xF50A).key k = false)
    ∧ ((ready 0x1200).Running ∧ decode (ready 0x1200).fetch = .instr (.jp 0x200)
      ∧ (ready 0x1200).pc.toNat = (0x200 : Imm12).toNat) :=
  ⟨⟨ready_running _, by decide, by decide⟩, ⟨ready_running _, by decide, by decide⟩⟩

/-- The clauses of the timers' statement: their two writers, the reader, an instruction that is none of them, a Tick that
changes a timer, and a Load. -/
theorem witness_TimersObeyTheirWriters :
    (∃ t, exec (.ldDtVx 5) halted = .next t) ∧ (∃ t, exec (.ldStVx 5) halted = .next t) ∧ (∃ t, exec (.ldVxDt 5) halted = .next t)
    ∧ ((∃ t, exec .cls halted = .next t) ∧ (∀ x, Instr.cls ≠ .ldVxDt x) ∧ (∀ x, Instr.cls ≠ .ldDtVx x) ∧ ∀ x, Instr.cls ≠ .ldStVx x)
    ∧ (∃ t r, perform .tick halted = .next (t, r) ∧ t.dt ≠ halted.dt) ∧ ∃ t, load [] halted = .ok t :=
  ⟨⟨_, rfl⟩, ⟨_, rfl⟩, ⟨_, rfl⟩, ⟨⟨_, rfl⟩, nofun, nofun, nofun⟩,
    ⟨_, _, rfl, by decide⟩, ⟨_, rfl⟩⟩

theorem witness_TickCountsDownToZero : halted.isLoaded = true ∧ State.reset.isLoaded = true := by decide

theorem witness_SetKeyWritesOneKey : (14 : Nibble) ≠ 15 := by decide

/-- The largest image that fits, and the empty one. -/
theorem witness_LoadLeavesResetState :
    font.length = 80 ∧ (List.replicate 3584 (0xFF : Byte)).length ≤ 3584 ∧ ([] : List Byte).length ≤ 3584 :=
  ⟨by decide, by rw [List.length_replicate], Nat.zero_le _⟩

theorem witness_LoadTooLargeChangesNothing : 3584 < (List.replicate 3585 (0 : Byte)).length := by rw [List.length_replicate]; decide

theorem witness_LoadForgetsThePast :
    (halted.cfg = State.reset.cfg ∧ halted.rndIn = State.reset.rndIn ∧ halted.draws = State.reset.draws)
      ∧ ∃ t, load [0x12, 0x00] halted = .ok t ∧ State.reset.cfg = t.cfg :=
  ⟨⟨rfl, rfl, rfl⟩, _, rfl, rfl⟩

theorem witness_ResetIsEmptyLoadFromPowerOn : powerOn.PowerOn := ⟨rfl, rfl⟩

/-- Power-on itself, and a core whose `CFG` and a key the host has written before any Load. -/
theorem witness_BeforeLoadNothingRuns :
    powerOn.isLoaded = false ∧ (let s := (powerOn.setConfig 3).setKey 7 true; s.isLoaded = false ∧ s.cfg = 3) := by decide

theorem witness_InstructionsTouchOnlyTheirPieces : (∃ t, exec .ret (atSp 1) = .next t) ∧ ∃ t, exec (.stRegs 3) halted = .next t :=
  ⟨⟨_, rfl⟩, ⟨_, rfl⟩⟩

theorem witness_RegistersChangeOnlyByTheirWriters :
    (∃ t, exec (.addReg 1 2) halted = .next t) ∧ ¬ mayWriteReg 2 (.addReg 1 2) ∧ (∃ t, exec (.ldRegs 3) halted = .next t)
      ∧ ¬ mayWriteReg 4 (.ldRegs 3) := by
  refine ⟨⟨_, rfl⟩, ?_, ⟨_, rfl⟩, ?_⟩ <;> unfold mayWriteReg <;> decide

/-- A store across the end of memory, and the cells on either side of it. -/
theorem witness_MemoryChangesOnlyWhereStored :
    let s : State := { State.reset with i := 0xFFF }
    Memory.wf s.mem = true ∧ (∃ t, exec (.ldB 0) s = .next t)
      ∧ ∀ a ∈ [0xFFE, 2], ∀ k < storedBytes (.ldB 0), effective (s.indexed k) ≠ effective a :=
  ⟨rfl, ⟨_, rfl⟩, by decide⟩

theorem witness_ConfigIsSeenByFourInstructions :
    (∀ x y, Instr.subReg 1 2 ≠ .shr x y) ∧ (∀ x y, Instr.subReg 1 2 ≠ .shl x y) ∧ (∀ x, Instr.subReg 1 2 ≠ .stRegs x)
      ∧ ∀ x, Instr.subReg 1 2 ≠ .ldRegs x :=
  ⟨nofun, nofun, nofun, nofun⟩

end Sys2Proof.Tests
end

section
/-! O29: no instruction but `RND` depends on the model's own draw fields (00_scope.md R10, 41_register_alu.md R124;
log 2). -/

namespace Sys2Proof.Machine

variable {s t : State}

/-- `LD Vx, [I]` reads the registers, `I` and memory, and nothing else. -/
theorem State.loadRegs_v_congr (hv : t.v = s.v) (hi : t.i = s.i) (hm : t.mem = s.mem) (n : Nat) :
    (t.loadRegs n).v = (s.loadRegs n).v := by
  induction n with
  | zero => exact hv
  | succ n ih => simp only [State.loadRegs, State.setReg_v, State.indexed, ih, hi, hm]

/-- The state with other pending draws and another count before them. -/
def State.withDraws (s : State) (l : List Byte) (n : Nat) : State := { s with rndIn := l, draws := n }

/-- Loading registers commutes with replacing the draw fields. -/
theorem State.loadRegs_withDraws (s : State) (l : List Byte) (n count : Nat) :
    (s.withDraws l n).loadRegs count = (s.loadRegs count).withDraws l n := by
  have hv : ((s.withDraws l n).loadRegs count).v = (s.loadRegs count).v :=
    State.loadRegs_v_congr (s := s) (t := s.withDraws l n) rfl rfl rfl count
  rw [State.loadRegs_eq (s.withDraws l n), hv, State.loadRegs_eq s]
  rfl

/-- `RET` commutes with replacing the draw fields, popping or faulting. -/
theorem execRet_withDraws (s : State) (l : List Byte) (n : Nat) :
    execRet (s.withDraws l n) = mapNext (fun t => t.withDraws l n) (execRet s) := by
  by_cases hs : s.sp.val = 0
  · have he : s.sp = 0 := Fin.ext hs
    rw [execRet_empty he, execRet_empty (s := s.withDraws l n) he]
    rfl
  · rw [execRet_used hs, execRet_used (s := s.withDraws l n) hs]
    rfl

/-- `CALL` commutes with replacing the draw fields, pushing or faulting. -/
theorem execCall_withDraws (s : State) (nnn : Imm12) (l : List Byte) (n : Nat) :
    execCall nnn (s.withDraws l n) = mapNext (fun t => t.withDraws l n) (execCall nnn s) := by
  by_cases hs : s.sp.val < 12
  · rw [execCall_room nnn hs, execCall_room (s := s.withDraws l n) nnn hs]
    rfl
  · have hf : s.sp = 12 := Fin.ext (Nat.le_antisymm (Nat.le_of_lt_succ s.sp.isLt) (Nat.not_lt.mp hs))
    rw [execCall_full nnn hf, execCall_full (s := s.withDraws l n) nnn hf]
    rfl

/-- `LD Vx, K` commutes with replacing the draw fields, with a key found or waiting. -/
theorem execLdVxK_withDraws (s : State) (x : Nibble) (l : List Byte) (n : Nat) :
    execLdVxK x (s.withDraws l n) = mapNext (fun t => t.withDraws l n) (execLdVxK x s) := by
  cases hk : s.firstKey with
  | some k =>
    rw [execLdVxK_some x hk, execLdVxK_some (s := s.withDraws l n) x hk]
    rfl
  | none =>
    rw [execLdVxK_none x hk, execLdVxK_none (s := s.withDraws l n) x hk]
    rfl

/-- `LD Vx, [I]` commutes with replacing the draw fields. -/
theorem execLdRegs_withDraws (s : State) (x : Nibble) (l : List Byte) (n : Nat) :
    execLdRegs x (s.withDraws l n) = mapNext (fun t => t.withDraws l n) (execLdRegs x s) := by
  rw [execLdRegs, State.loadRegs_withDraws]
  rfl

/-- Every instruction but `RND` commutes with replacing the draw fields. Those with one ending that is a plain record
update do so by definition; the others cite their own lemma. -/
theorem exec_withDraws {i : Instr} (hi : ∀ x nn, i ≠ .rnd x nn) (s : State) (l : List Byte) (n : Nat) :
    exec i (s.withDraws l n) = mapNext (fun t => t.withDraws l n) (exec i s) := by
  cases i with
  | rnd x nn => exact absurd rfl (hi x nn)
  | ret => exact execRet_withDraws s l n
  | call nnn => exact execCall_withDraws s nnn l n
  | ldVxK x => exact execLdVxK_withDraws s x l n
  | ldRegs x => exact execLdRegs_withDraws s x l n
  | _ => rfl

/-- Settles O29: replacing the draw fields commutes with each instruction, a case per constructor. -/
theorem drawsAreSeenByRndOnly : Obligations.DrawsAreSeenByRndOnly := by
  unfold Obligations.DrawsAreSeenByRndOnly
  intro i s l n hi
  exact exec_withDraws hi s l n

end Sys2Proof.Machine
end

section
/-! O11, O12, O13: the invariant under every step and every host operation (10_state.md R31; 60_exceptions.md R180 to
R183; 70_reset_and_hazards.md R211). -/

namespace Sys2Proof.Machine

variable {s t : State} {i : Instr}

/-- Without a fault recorded the clauses on faults are vacuous: only the form of memory is left. -/
theorem Inv.of_noFault (hm : Memory.wf s.mem = true) (hf : s.faulted = false) (hc : s.cause = 0) : Inv s where
  memWf := hm
  causeLegal := by rw [hc]; decide
  faultHasCause := by simp [hf, hc]
  faultIsLoaded := by simp [hf]
  overflowFull := by rw [hc]; exact fun h => absurd h (by decide)
  underflowEmpty := by rw [hc]; exact fun h => absurd h (by decide)

/-- A core that is not faulted records no cause. -/
theorem Inv.cause_eq_zero (h : Inv s) (hf : s.faulted = false) : s.cause = 0 := by
  by_contra hc
  rw [h.faultHasCause.mpr hc] at hf
  cases hf

/-- The invariant speaks of memory, `STATUS` and `SP` only. -/
theorem Inv.congr (h : Inv s) (hm : t.mem = s.mem) (hst : t.status = s.status) (hsp : t.sp = s.sp) : Inv t := by
  obtain ⟨hf, hc, hl⟩ := State.status_congr hst
  obtain ⟨memWf, causeLegal, faultHasCause, faultIsLoaded, overflowFull, underflowEmpty⟩ := h
  constructor <;> simpa only [hm, hf, hc, hl, hsp]

/-- Taking the overflow on a full stack of a loaded core (60_exceptions.md R180). -/
theorem inv_raise_stackOverflow (hm : Memory.wf s.mem = true) (hl : s.isLoaded = true) (hsp : s.sp = 12) :
    Inv (s.raise .stackOverflow) where
  memWf := hm
  causeLegal := by simp [Cause.code]
  faultHasCause := by simp [Cause.code]
  faultIsLoaded := by simp [hl]
  overflowFull := fun _ => hsp
  underflowEmpty := by simp [Cause.code]

/-- Taking the underflow on an empty stack of a loaded core (60_exceptions.md R181). -/
theorem inv_raise_stackUnderflow (hm : Memory.wf s.mem = true) (hl : s.isLoaded = true) (hsp : s.sp = 0) :
    Inv (s.raise .stackUnderflow) where
  memWf := hm
  causeLegal := by simp [Cause.code]
  faultHasCause := by simp [Cause.code]
  faultIsLoaded := by simp [hl]
  overflowFull := by simp [Cause.code]
  underflowEmpty := fun _ => hsp

/-- An instruction of a running core keeps the invariant: it leaves `STATUS` alone, or takes a stack fault whose clause
its own condition gives. `SP` may move in the first case, since no cause is recorded there. -/
theorem inv_exec (hs : Inv s) (hrun : s.Running) (h : exec i s = .next t) : Inv t := by
  obtain ⟨hl, hf⟩ := hrun
  rcases exec_status_cases h with hst | ⟨nnn, rfl, hsp, rfl⟩ | ⟨rfl, hsp, rfl⟩
  · obtain ⟨hf', hc', -⟩ := State.status_congr hst
    exact Inv.of_noFault (wf_exec hs.memWf h) (hf'.trans hf) (hc'.trans (hs.cause_eq_zero hf))
  · exact inv_raise_stackOverflow hs.memWf hl hsp
  · exact inv_raise_stackUnderflow hs.memWf hl hsp

theorem inv_advance (hs : Inv s) : Inv s.advance := hs.congr rfl rfl rfl

/-- One step, in its three answering cases: halted, an instruction, or an undefined opcode. -/
theorem inv_step (hs : Inv s) (h : step s = .next t) : Inv t := by
  obtain ⟨hl, ⟨-, rfl⟩ | ⟨hf, i, -, he⟩ | ⟨-, r, -, rfl⟩⟩ := step_cases h
  · exact hs
  · exact inv_exec (inv_advance hs) ⟨hl, hf⟩ he
  · exact inv_advance hs

/-- Settles O11: memory keeps its form under every store, and `STATUS` changes only where `CALL` or `RET` faults. -/
theorem stepKeepsInvariant : Obligations.StepKeepsInvariant := by
  unfold Obligations.StepKeepsInvariant
  intro s t hs h
  exact inv_step hs h

/-- What a Load leaves meets the invariant, whatever was there before. -/
theorem inv_loadedWith (s : State) (fontTable image : List Byte) : Inv (s.loadedWith fontTable image) :=
  Inv.of_noFault (wf_loadedMemory fontTable image) (status_fields true 0 false).1 (status_fields true 0 false).2.1

/-- A Load that is answered leaves the loaded state or, with an error, the state it found. -/
theorem load_of_perform_load {image : List Byte} {r : Reply} (h : perform (.load image) s = .next (t, r)) :
    t = s.loadedWith font image ∨ t = s := by
  obtain ⟨-, hload⟩ | ⟨-, hload⟩ := load_cases (s := s) image <;> simp only [perform, hload] at h <;> cases h
  · exact .inl rfl
  · exact .inr rfl

/-- Settles O12, an operation at a time: Load establishes the invariant, Step keeps it by `inv_step`, and no other
operation touches memory, `STATUS` or `SP`. -/
theorem hostOperationsKeepInvariant : Obligations.HostOperationsKeepInvariant := by
  unfold Obligations.HostOperationsKeepInvariant
  intro o s t r hs h
  cases o with
  | load image =>
    obtain rfl | rfl := load_of_perform_load h
    · exact inv_loadedWith s font image
    · exact hs
  | step rnd =>
    have hdraw : Inv { s with rndIn := [rnd] } := hs.congr rfl rfl rfl
    exact inv_step hdraw (step_of_perform_step h)
  | tick =>
    obtain ⟨-, rfl⟩ := tick_of_perform_tick h
    exact hs.congr rfl rfl rfl
  | setKey k b => cases h; exact hs.congr rfl rfl rfl
  | setConfig c => cases h; exact hs.congr rfl rfl rfl
  | readDisp | readSound | readStatus => cases h; exact hs

/-- Settles O13: no cell is listed and no fault recorded. -/
theorem resetMeetsInvariant : Obligations.ResetMeetsInvariant := by
  unfold Obligations.ResetMeetsInvariant
  exact Inv.of_noFault rfl (by decide) (by decide)

end Sys2Proof.Machine
end

section
/-! O52, O53: what each instruction leaves unchanged (10_state.md R21, R22, R24 to R34; 20_memory.md R43). A frame for each
shared operation, composed once for each instruction. -/

namespace Sys2Proof.Machine

variable {s t u : State} {i : Instr} {ps qs : List Piece}

/-! ## Composing frames -/

theorem Unchanged.trans {p : Piece} (h : Unchanged s t p) (h' : Unchanged t u p) : Unchanged s u p := by
  cases p with
  | regs => exact fun r => (h' r).trans (h r)
  | mem => exact fun a => (h' a).trans (h a)
  | stack | draws => exact ⟨h'.1.trans h.1, h'.2.trans h.2⟩
  | index | pc | delay | sound | disp | keys | cfg | status => exact Eq.trans h' h

/-- Two changes in a row touch the pieces of both. -/
theorem SameExcept.trans (h : SameExcept ps s t) (h' : SameExcept qs t u) : SameExcept (ps ++ qs) s u := by
  intro p hp
  rw [List.mem_append, not_or] at hp
  exact (h p hp.1).trans (h' p hp.2)

/-- A frame may name more pieces than were touched. -/
theorem SameExcept.mono (h : SameExcept ps s t) (hsub : ps ⊆ qs) : SameExcept qs s t :=
  fun p hp => h p (fun hmem => hp (hsub hmem))

/-- A frame for the next state of an outcome is one for the outcome. -/
theorem SameExcept.of_next {o : Host.Outcome State Fault Refusal} (h : o = .next t) (hu : o = .next u)
    (hframe : SameExcept ps s u) : SameExcept ps s t := by
  rw [h] at hu
  cases hu
  exact hframe

/-! ## One frame for each update -/

theorem sameExcept_setReg (x : Nibble) (b : Byte) : SameExcept [.regs] s (s.setReg x b) := sameExcept_regs _

theorem sameExcept_setFlagged (x : Nibble) (c : Bool) (b : Byte) : SameExcept [.regs] s (s.setFlagged x c b) :=
  sameExcept_regs _

theorem sameExcept_loadRegs (n : Nat) : SameExcept [.regs] s (s.loadRegs n) := by
  rw [State.loadRegs_eq]
  exact sameExcept_regs _

theorem sameExcept_jump (p : Word) : SameExcept [.pc] s (s.jump p) := by
  intro q hq
  cases q <;> simp_all [Unchanged]

theorem sameExcept_skipIf (c : Bool) : SameExcept [.pc] s (s.skipIf c) := sameExcept_jump _

theorem sameExcept_raise (c : Cause) : SameExcept [.pc, .status] s (s.raise c) := by
  intro q hq
  cases q <;> simp_all [Unchanged]

theorem sameExcept_index (w : Word) : SameExcept [.index] s { s with i := w } := by
  intro q hq
  cases q <;> simp_all [Unchanged, State.reg]

theorem sameExcept_storeAtIndex (l : List Byte) : SameExcept [.mem] s (s.storeAtIndex l) := by
  intro q hq
  cases q <;> simp_all [Unchanged]

theorem sameExcept_disp (d : Display) : SameExcept [.disp] s { s with disp := d } := by
  intro q hq
  cases q <;> simp_all [Unchanged, State.reg]

theorem sameExcept_delay (b : Byte) : SameExcept [.delay] s { s with dt := b } := by
  intro q hq
  cases q <;> simp_all [Unchanged, State.reg]

theorem sameExcept_sound (b : Byte) : SameExcept [.sound] s { s with st := b } := by
  intro q hq
  cases q <;> simp_all [Unchanged, State.reg]

theorem sameExcept_drawn : SameExcept [.draws] s s.drawn := by
  intro q hq
  cases q <;> simp_all [Unchanged]

theorem sameExcept_callFrame (w : Word) (k : Fin 13) (st : Vector Word 12) :
    SameExcept [.pc, .stack] s { s with pc := w, sp := k, stack := st } := by
  intro q hq
  cases q <;> simp_all [Unchanged, State.reg]

/-! ## The instructions with several endings -/

/-- A stack without room has all its entries in use. -/
theorem State.sp_eq_twelve (h : ¬ s.sp.val < 12) : s.sp = 12 :=
  Fin.ext (Nat.le_antisymm (Nat.le_of_lt_succ s.sp.isLt) (Nat.not_lt.mp h))

theorem execRet_sameExcept (h : execRet s = .next t) : SameExcept [.pc, .stack, .status] s t := by
  by_cases hs : s.sp.val = 0
  · exact ((sameExcept_raise _).of_next h (execRet_empty (Fin.ext hs))).mono (by simp)
  · exact ((sameExcept_callFrame _ _ _).of_next h (execRet_used hs)).mono (by simp)

theorem execCall_sameExcept {nnn : Imm12} (h : execCall nnn s = .next t) : SameExcept [.pc, .stack, .status] s t := by
  by_cases hs : s.sp.val < 12
  · exact ((sameExcept_callFrame _ _ _).of_next h (execCall_room nnn hs)).mono (by simp)
  · exact ((sameExcept_raise _).of_next h (execCall_full nnn (State.sp_eq_twelve hs))).mono (by simp)

theorem execLdVxK_sameExcept {x : Nibble} (h : execLdVxK x s = .next t) : SameExcept [.regs, .pc] s t := by
  cases hk : s.firstKey with
  | some k => exact ((sameExcept_setReg _ _).of_next h (execLdVxK_some x hk)).mono (by simp)
  | none => exact ((sameExcept_jump _).of_next h (execLdVxK_none x hk)).mono (by simp)

/-! ## Every instruction -/

/-- The frame of each instruction, from the frames of the updates it makes. -/
theorem exec_sameExcept (h : exec i s = .next t) : SameExcept (touches i) s t := by
  cases i with
  | cls => exact (sameExcept_disp _).of_next h rfl
  | drw x y n => exact ((sameExcept_disp _).trans (sameExcept_setReg _ _)).of_next h rfl
  | ret => exact execRet_sameExcept h
  | call nnn => exact execCall_sameExcept h
  | jp | jpV0 => exact (sameExcept_jump _).of_next h rfl
  | seImm | sneImm | seReg | sneReg | skp | sknp => exact (sameExcept_skipIf _).of_next h rfl
  | ldImm | addImm | ldReg | orReg | andReg | xorReg | ldVxDt => exact (sameExcept_setReg _ _).of_next h rfl
  | addReg | subReg | shr | subnReg | shl => exact (sameExcept_setFlagged _ _ _).of_next h rfl
  | rnd x nn => exact ((sameExcept_drawn.trans (sameExcept_setReg _ _)).mono (by simp [touches])).of_next h rfl
  | ldVxK x => exact execLdVxK_sameExcept h
  | ldI | addI | ldF => exact (sameExcept_index _).of_next h rfl
  | ldDtVx x => exact (sameExcept_delay _).of_next h rfl
  | ldStVx x => exact (sameExcept_sound _).of_next h rfl
  | ldB x => exact (sameExcept_storeAtIndex _).of_next h rfl
  | stRegs x => exact ((sameExcept_storeAtIndex _).trans (sameExcept_index _)).of_next h rfl
  | ldRegs x => exact ((sameExcept_loadRegs _).trans (sameExcept_index _)).of_next h rfl

/-- Settles O52: each instruction is a composition of updates with frames of their own. -/
theorem instructionsTouchOnlyTheirPieces : Obligations.InstructionsTouchOnlyTheirPieces := by
  unfold Obligations.InstructionsTouchOnlyTheirPieces
  intro i s t h
  exact exec_sameExcept h

/-! ## Registers -/

/-- An instruction outside those that touch the register file keeps every register. -/
theorem reg_exec_of_not_touches (h : exec i s = .next t) (hi : Piece.regs ∉ touches i) (r : Nibble) :
    t.reg r = s.reg r :=
  exec_sameExcept h .regs hi r

theorem reg_execLdVxK {x r : Nibble} (h : execLdVxK x s = .next t) (hr : r ≠ x) : t.reg r = s.reg r := by
  cases hk : s.firstKey with
  | some k =>
    rw [execLdVxK_some x hk] at h
    cases h
    exact State.reg_setReg_ne s _ hr
  | none =>
    rw [execLdVxK_none x hk] at h
    cases h
    rfl

theorem reg_execLdRegs {x r : Nibble} (h : execLdRegs x s = .next t) (hr : ¬ r.toNat ≤ x.toNat) : t.reg r = s.reg r := by
  cases h
  rw [State.reg_bumpIndex, State.reg_loadRegs s (by omega), if_neg (by omega)]

/-- A register that an instruction may not write keeps its value: the destination, `VF` beside it, or a load's range. -/
theorem reg_exec {r : Nibble} (h : exec i s = .next t) (hr : ¬ mayWriteReg r i) : t.reg r = s.reg r := by
  cases i with
  | ldImm | addImm | ldReg | orReg | andReg | xorReg | ldVxDt => cases h; exact State.reg_setReg_ne _ _ hr
  | rnd x nn => cases h; exact State.reg_setReg_ne s.drawn _ hr
  | drw x y n => cases h; exact State.reg_setReg_ne { s with disp := (s.sprite x y n).1 } _ hr
  | addReg | subReg | shr | subnReg | shl =>
    cases h
    obtain ⟨hx, hv⟩ := not_or.mp hr
    exact State.reg_setFlagged_other s _ _ hx hv
  | ldVxK x => exact reg_execLdVxK h hr
  | ldRegs x => exact reg_execLdRegs h hr
  | _ => exact reg_exec_of_not_touches h (by simp [touches]) r

/-- Settles O53: from `reg_exec`, the register frame of every instruction. -/
theorem registersChangeOnlyByTheirWriters : Obligations.RegistersChangeOnlyByTheirWriters := by
  unfold Obligations.RegistersChangeOnlyByTheirWriters
  intro i s t r h hr
  exact reg_exec h hr

end Sys2Proof.Machine
end

section
/-! O43, O55: who writes and who reads the timers and `CFG` (10_state.md R29, R30). Changing one of these fields before an
instruction that does not use it is changing it afterwards. -/

namespace Sys2Proof.Machine

variable {s t : State} {i : Instr}

/-! ## Changing the timers and `CFG` -/

/-- The state with `d` applied to the delay timer, `e` to the sound timer and `c` to `CFG`. -/
def State.mapSide (d e : Byte → Byte) (c : BitVec 2 → BitVec 2) (s : State) : State :=
  { s with dt := d s.dt, st := e s.st, cfg := c s.cfg }

/-- The instruction reads or writes `DT` (43_display_input_timer.md R164, R165). -/
def UsesDelay (i : Instr) : Prop := ∃ x, i = .ldVxDt x ∨ i = .ldDtVx x

/-- The instruction writes `ST` (43_display_input_timer.md R166). None reads it. -/
def UsesSound (i : Instr) : Prop := ∃ x, i = .ldStVx x

/-- The instruction reads `CFG` (41_register_alu.md R123, 42_index_memory.md R147). None writes it. -/
def UsesConfig (i : Instr) : Prop := (∃ x y, i = .shr x y ∨ i = .shl x y) ∨ ∃ x, i = .stRegs x ∨ i = .ldRegs x

section
variable (d e : Byte → Byte) (c : BitVec 2 → BitVec 2)

theorem State.loadRegs_mapSide (s : State) (n : Nat) :
    (s.mapSide d e c).loadRegs n = (s.loadRegs n).mapSide d e c := by
  have hv : ((s.mapSide d e c).loadRegs n).v = (s.loadRegs n).v := 
    State.loadRegs_v_congr (s := s) (t := s.mapSide d e c) rfl rfl rfl n
  rw [State.loadRegs_eq (s.mapSide d e c), hv, State.loadRegs_eq s]
  rfl

theorem execRet_mapSide (s : State) : execRet (s.mapSide d e c) = mapNext (State.mapSide d e c) (execRet s) := by
  by_cases hs : s.sp.val = 0
  · have hempty : s.sp = 0 := Fin.ext hs
    rw [execRet_empty hempty, execRet_empty (s := s.mapSide d e c) hempty]
    rfl
  · rw [execRet_used hs, execRet_used (s := s.mapSide d e c) hs]
    rfl

theorem execCall_mapSide (s : State) (nnn : Imm12) :
    execCall nnn (s.mapSide d e c) = mapNext (State.mapSide d e c) (execCall nnn s) := by
  by_cases hs : s.sp.val < 12
  · rw [execCall_room nnn hs, execCall_room (s := s.mapSide d e c) nnn hs]
    rfl
  · have hfull : s.sp = 12 := State.sp_eq_twelve hs
    rw [execCall_full nnn hfull, execCall_full (s := s.mapSide d e c) nnn hfull]
    rfl

theorem execLdVxK_mapSide (s : State) (x : Nibble) :
    execLdVxK x (s.mapSide d e c) = mapNext (State.mapSide d e c) (execLdVxK x s) := by
  cases hk : s.firstKey with
  | some k =>
    rw [execLdVxK_some x hk, execLdVxK_some (s := s.mapSide d e c) x hk]
    rfl
  | none =>
    rw [execLdVxK_none x hk, execLdVxK_none (s := s.mapSide d e c) x hk]
    rfl

/-- The load of registers sees `CFG`, so only the timers may change under it. -/
theorem execLdRegs_mapTimers (s : State) (x : Nibble) :
    execLdRegs x (s.mapSide d e id) = mapNext (State.mapSide d e id) (execLdRegs x s) := by
  rw [execLdRegs, State.loadRegs_mapSide]
  rfl

variable {d e c}

/-- An instruction commutes with a change to the timers and `CFG` that keeps those it uses. -/
theorem exec_mapSide (hd : UsesDelay i → d = id) (he : UsesSound i → e = id) (hc : UsesConfig i → c = id) (s : State) :
    exec i (s.mapSide d e c) = mapNext (State.mapSide d e c) (exec i s) := by
  cases i with
  | ldVxDt x => obtain rfl := hd ⟨x, .inl rfl⟩; rfl
  | ldDtVx x => obtain rfl := hd ⟨x, .inr rfl⟩; rfl
  | ldStVx x => obtain rfl := he ⟨x, rfl⟩; rfl
  | shr x y => obtain rfl := hc (.inl ⟨x, y, .inl rfl⟩); rfl
  | shl x y => obtain rfl := hc (.inl ⟨x, y, .inr rfl⟩); rfl
  | stRegs x => obtain rfl := hc (.inr ⟨x, .inl rfl⟩); rfl
  | ldRegs x => obtain rfl := hc (.inr ⟨x, .inr rfl⟩); exact execLdRegs_mapTimers d e s x
  | ret => exact execRet_mapSide d e c s
  | call nnn => exact execCall_mapSide d e c s nnn
  | ldVxK x => exact execLdVxK_mapSide d e c s x
  | _ => rfl

end

/-- Settles O55: `exec_mapSide` with both timers kept. -/
theorem configIsSeenByFourInstructions : Obligations.ConfigIsSeenByFourInstructions := by
  unfold Obligations.ConfigIsSeenByFourInstructions
  intro i s c hshr hshl hst hld
  have hunused : ¬ UsesConfig i := by
    rintro (⟨x, y, hi | hi⟩ | ⟨x, hi | hi⟩)
    · exact hshr x y hi
    · exact hshl x y hi
    · exact hst x hi
    · exact hld x hi
  exact exec_mapSide (d := id) (e := id) (c := fun _ => c) (fun _ => rfl) (fun _ => rfl) (absurd · hunused) s

/-! ## The timers under instructions -/

theorem delay_not_mem_touches (hi : ∀ x, i ≠ .ldDtVx x) : Piece.delay ∉ touches i := by
  cases i with
  | ldDtVx x => exact absurd rfl (hi x)
  | _ => simp [touches]

theorem sound_not_mem_touches (hi : ∀ x, i ≠ .ldStVx x) : Piece.sound ∉ touches i := by
  cases i with
  | ldStVx x => exact absurd rfl (hi x)
  | _ => simp [touches]

theorem dt_of_exec_ldDtVx {x : Nibble} (h : exec (.ldDtVx x) s = .next t) : t.dt = s.reg x := by cases h; rfl

theorem st_of_exec_ldStVx {x : Nibble} (h : exec (.ldStVx x) s = .next t) : t.st = s.reg x := by cases h; rfl

theorem reg_of_exec_ldVxDt {x : Nibble} (h : exec (.ldVxDt x) s = .next t) : t.reg x = s.dt := by
  cases h; exact State.reg_setReg_self s x s.dt

/-- Which instructions write a timer, and with what: one reads `DT` back. -/
theorem exec_timers (h : exec i s = .next t) :
    (∀ x, i = .ldDtVx x → t.dt = s.reg x) ∧ ((∀ x, i ≠ .ldDtVx x) → t.dt = s.dt)
      ∧ (∀ x, i = .ldStVx x → t.st = s.reg x) ∧ ((∀ x, i ≠ .ldStVx x) → t.st = s.st)
      ∧ (∀ x, i = .ldVxDt x → t.reg x = s.dt) := by
  refine ⟨?_, fun hi => exec_sameExcept h .delay (delay_not_mem_touches hi), ?_,
    fun hi => exec_sameExcept h .sound (sound_not_mem_touches hi), ?_⟩
  · rintro x rfl; exact dt_of_exec_ldDtVx h
  · rintro x rfl; exact st_of_exec_ldStVx h
  · rintro x rfl; exact reg_of_exec_ldVxDt h

/-- `DT` is invisible to every instruction but its reader and its writer. -/
theorem exec_withDelay (hrd : ∀ x, i ≠ .ldVxDt x) (hwr : ∀ x, i ≠ .ldDtVx x) (s : State) (b : Byte) :
    exec i { s with dt := b } = mapNext (fun t => { t with dt := b }) (exec i s) := by
  have hunused : ¬ UsesDelay i := by
    rintro ⟨x, hi | hi⟩
    · exact hrd x hi
    · exact hwr x hi
  exact exec_mapSide (d := fun _ => b) (e := id) (c := id) (absurd · hunused) (fun _ => rfl) (fun _ => rfl) s

/-- `ST` is invisible to every instruction but its writer. -/
theorem exec_withSound (hwr : ∀ x, i ≠ .ldStVx x) (s : State) (b : Byte) :
    exec i { s with st := b } = mapNext (fun t => { t with st := b }) (exec i s) := by
  have hunused : ¬ UsesSound i := fun ⟨x, hi⟩ => hwr x hi
  exact exec_mapSide (d := id) (e := fun _ => b) (c := id) (fun _ => rfl) (absurd · hunused) (fun _ => rfl) s

/-! ## The timers under the host's operations -/

theorem timers_of_perform_tick {r : Reply} (h : perform .tick s = .next (t, r)) :
    t.dt.toNat = s.dt.toNat - 1 ∧ t.st.toNat = s.st.toNat - 1 := by
  obtain ⟨-, rfl⟩ := tick_of_perform_tick h
  exact ⟨toNat_countDown s.dt, toNat_countDown s.st⟩

/-- An operation that changes a timer is a Tick, a Load or a Step. -/
theorem hostOp_of_timers_changed {o : HostOp} {r : Reply} (h : perform o s = .next (t, r))
    (hne : t.dt ≠ s.dt ∨ t.st ≠ s.st) : o = .tick ∨ (∃ image, o = .load image) ∨ ∃ b, o = .step b := by
  cases o with
  | tick => exact .inl rfl
  | load image => exact .inr (.inl ⟨image, rfl⟩)
  | step b => exact .inr (.inr ⟨b, rfl⟩)
  | setKey | setConfig | readDisp | readSound | readStatus =>
    cases h
    exact absurd hne (by simp)

theorem timers_of_load {image : List Byte} (h : load image s = .ok t) : t.dt = 0 ∧ t.st = 0 := by
  obtain ⟨-, hl⟩ | ⟨-, hl⟩ := load_cases (s := s) image <;> rw [hl] at h <;> cases h
  exact ⟨rfl, rfl⟩

/-- Settles O43, a clause at a time: writers, readers, the host's operations, reset and Load. -/
theorem timersObeyTheirWriters : Obligations.TimersObeyTheirWriters := by
  unfold Obligations.TimersObeyTheirWriters
  refine ⟨fun i s t h => exec_timers h, fun i s b hrd hwr => exec_withDelay hrd hwr s b, fun _ _ _ => rfl,
    fun i s b hwr => exec_withSound hwr s b, fun _ _ _ => rfl, fun o s t r h => ⟨?_, hostOp_of_timers_changed h⟩,
    rfl, rfl, fun _ _ _ h => timers_of_load h⟩
  rintro rfl
  exact timers_of_perform_tick h

end Sys2Proof.Machine
end

section
/-! O27: the two shifts (41_register_alu.md R120, R122, R123). -/

namespace Sys2Proof.Machine

theorem toNat_ushiftRight_one (v : Byte) : (v >>> 1).toNat = v.toNat / 2 := by
  rw [BitVec.toNat_ushiftRight, Nat.shiftRight_eq_div_pow, pow_one]

theorem toNat_shiftLeft_one (v : Byte) : (v <<< 1).toNat = v.toNat * 2 % 256 := by
  rw [BitVec.toNat_shiftLeft, Nat.shiftLeft_eq, pow_one]

/-- The bit a right shift moves out is the value's parity. -/
theorem shrFlag_iff (v : Byte) : shrFlag v = true ↔ v.toNat % 2 = 1 := by
  rw [shrFlag, BitVec.getLsbD, Nat.testBit_zero, decide_eq_true_iff]

/-- The bit a left shift moves out is the value's top bit. -/
theorem shlFlag_iff (v : Byte) : shlFlag v = true ↔ v.toNat ≥ 128 := by
  rw [shlFlag, ← BitVec.msb_eq_getLsbD_last, BitVec.msb_eq_decide, decide_eq_true_iff]

/-- Settles O27: both shifts write the flag and then the shifted source; the two bits as arithmetic. -/
theorem shiftsMoveOneBitOut : Obligations.ShiftsMoveOneBitOut := by
  unfold Obligations.ShiftsMoveOneBitOut
  rintro s x y v rfl
  exact ⟨completesFlagged_of_setFlagged rfl (toNat_ushiftRight_one _) (shrFlag_iff _),
    completesFlagged_of_setFlagged rfl (toNat_shiftLeft_one _) (shlFlag_iff _)⟩

end Sys2Proof.Machine
end

section
/-! O47: the state a Load leaves (70_reset_and_hazards.md R211; 10_state.md R37). -/

namespace Sys2Proof.Machine

/-! ## Memory after a Load -/

/-- A run of writes that ends within memory, read back at any cell: its own byte inside the run, else what was there. -/
theorem memRead_memWriteAll_of_le {m : Memory} (hm : Memory.wf m = true) (l : List Byte) {a b : Nat}
    (ha : a + l.length ≤ 4096) (hb : b < 4096) :
    memRead (memWriteAll m a l) b = if a ≤ b ∧ b < a + l.length then l.getD (b - a) 0 else memRead m b := by
  split
  · next hin =>
    have hk : b - a < l.length := by omega
    have hlen : l.length ≤ Config.memSize := by simp only [Config.memSize]; omega
    have hread := memRead_memWriteAll_inside l hm a (b - a) hk hlen
    rw [Nat.add_sub_cancel' hin.1] at hread
    rw [hread, List.getD_eq_getElem _ _ hk]
  · next hout =>
    refine memRead_memWriteAll_outside l hm a b (fun k hk => ?_)
    simp only [effective, Config.memSize]
    omega

theorem wf_zeroMemory : Memory.wf zeroMemory = true := wf_memWriteAll _ rfl _

/-- Zeroing the font's cells leaves every cell zero (20_memory.md R51). -/
theorem memRead_zeroMemory {a : Nat} (ha : a < 4096) : memRead zeroMemory a = 0 := by
  have hfont : font.length = 80 := rfl
  rw [zeroMemory, memRead_memWriteAll_of_le rfl _ (by rw [List.length_replicate]; omega) ha, List.length_replicate]
  split
  · next hin => exact List.getD_replicate _ (by omega)
  · next hout =>
    have hpast : font.length ≤ effective a := by
      simp only [effective, Config.memSize]
      omega
    exact List.getD_eq_default font 0 hpast

/-- The memory a Load leaves, cell by cell: the font table at 0, the image at 0x200, zeros elsewhere. -/
theorem memRead_loadedMemory {fontTable image : List Byte} (hf : fontTable.length = 80) (hi : image.length ≤ 3584)
    {a : Nat} (ha : a < 4096) :
    memRead (loadedMemory fontTable image) a =
      if a < 80 then fontTable.getD a 0
      else if 0x200 ≤ a ∧ a < 0x200 + image.length then image.getD (a - 0x200) 0
      else 0 := by
  have hfontMem : Memory.wf (memWriteAll zeroMemory Config.fontBase fontTable) = true := wf_memWriteAll _ wf_zeroMemory _
  rw [loadedMemory, memRead_memWriteAll_of_le hfontMem image (by simp only [Config.entry]; omega) ha,
    memRead_memWriteAll_of_le wf_zeroMemory fontTable (by simp only [Config.fontBase]; omega) ha,
    memRead_zeroMemory ha, hf]
  simp only [Config.entry, Config.fontBase, Nat.zero_le, true_and, Nat.zero_add, Nat.sub_zero]
  by_cases hlow : a < 80
  · rw [if_neg (by omega), if_pos hlow, if_pos hlow]
  · rw [if_neg hlow, if_neg hlow]

/-! ## The rest of the state -/

theorem loadWith_of_fits (fontTable : List Byte) {image : List Byte} (s : State) (h : image.length ≤ 3584) :
    loadWith fontTable image s = .ok (s.loadedWith fontTable image) :=
  if_neg (Nat.not_lt.mpr h)

theorem perform_load_of_fits {image : List Byte} (s : State) (h : image.length ≤ 3584) :
    perform (.load image) s = .next (s.loadedWith font image, .ok) := by
  rw [perform, load, loadWith_of_fits font s h]

theorem reg_loadedWith (s : State) (fontTable image : List Byte) (r : Nibble) :
    (s.loadedWith fontTable image).reg r = 0 :=
  Vector.getElem_replicate r.isLt

theorem stack_loadedWith (s : State) (fontTable image : List Byte) {k : Nat} (hk : k < 12) :
    (s.loadedWith fontTable image).stack[k] = 0 :=
  Vector.getElem_replicate hk

theorem key_loadedWith (s : State) (fontTable image : List Byte) (k : Nibble) :
    (s.loadedWith fontTable image).key k = false :=
  Vector.getElem_replicate k.isLt

theorem pixelAt_loadedWith (s : State) (fontTable image : List Byte) (y x : Nat) :
    pixelAt (s.loadedWith fontTable image).disp y x = false :=
  pixelAt_clearDisplay y x

/-- Settles O47: the state is `loadedWith`, whose memory `memRead_loadedMemory` reads. -/
theorem loadLeavesResetState : Obligations.LoadLeavesResetState := by
  unfold Obligations.LoadLeavesResetState
  intro fontTable image s hf hi
  have hperform : fontTable = font → perform (.load image) s = .next (s.loadedWith fontTable image, .ok) := by
    rintro rfl
    exact perform_load_of_fits s hi
  exact ⟨s.loadedWith fontTable image, loadWith_of_fits fontTable s hi, hperform, reg_loadedWith s fontTable image,
    rfl, rfl, rfl, fun _ hk => stack_loadedWith s fontTable image hk, rfl, rfl, pixelAt_loadedWith s fontTable image,
    key_loadedWith s fontTable image, fun _ ha => memRead_loadedMemory hf hi ha, rfl, rfl, rfl, rfl⟩

end Sys2Proof.Machine
end

section
/-! O1: an encoded instruction decodes back to itself (20_memory.md R46; 30_encoding.md R65, R66, R69). The fields of each
format read back, so dispatch meets the group and the sub-selector the encoder wrote. -/

namespace Sys2Proof

/-- A word of format `NNN` decodes as dispatch answers on its group and address. -/
theorem decode_formNNN {g : Nibble} {nnn : Imm12} {i : Instr}
    (h : ∀ f : Fields, f.g = g → f.nnn = nnn → dispatch f = some i) : decode (formNNN g nnn) = .instr i := by
  obtain ⟨hg, hnnn⟩ := fields_formNNN g nnn
  exact decode_eq_instr.mpr (h _ hg hnnn)

/-- A word of format `XNN` decodes as dispatch answers on its group, register and byte. -/
theorem decode_formXNN {g x : Nibble} {nn : Byte} {i : Instr}
    (h : ∀ f : Fields, f.g = g → f.x = x → f.nn = nn → dispatch f = some i) : decode (formXNN g x nn) = .instr i := by
  obtain ⟨hg, hx, hnn⟩ := fields_formXNN g x nn
  exact decode_eq_instr.mpr (h _ hg hx hnn)

/-- A word of format `XYN` decodes as dispatch answers on its group, registers and nibble. -/
theorem decode_formXYN {g x y n : Nibble} {i : Instr}
    (h : ∀ f : Fields, f.g = g → f.x = x → f.y = y → f.n = n → dispatch f = some i) :
    decode (formXYN g x y n) = .instr i := by
  obtain ⟨hg, hx, hy, hn⟩ := fields_formXYN g x y n
  exact decode_eq_instr.mpr (h _ hg hx hy hn)

/-- The decoder undoes the encoder, a case for each format and group of 30_encoding.md R66 and R69. -/
theorem decode_encode (i : Instr) : decode (encode i) = .instr i := by
  cases i with
  | jp | call | ldI | jpV0 => exact decode_formNNN (fun f hg hnnn => by simp [dispatch, hg, hnnn])
  | seImm | sneImm | ldImm | addImm | rnd => exact decode_formXNN (fun f hg hx hnn => by simp [dispatch, hg, hx, hnn])
  | seReg | sneReg | drw => exact decode_formXYN (fun f hg hx hy hn => by simp [dispatch, hg, hx, hy, hn])
  | cls | ret => exact decode_formXNN (fun f hg _ hnn => by simp [dispatch, dispatchGroup0, hg, hnn])
  | ldReg | orReg | andReg | xorReg | addReg | subReg | shr | subnReg | shl =>
    exact decode_formXYN (fun f hg hx hy hn => by simp [dispatch, dispatchGroup8, hg, hx, hy, hn])
  | skp | sknp => exact decode_formXNN (fun f hg hx hnn => by simp [dispatch, dispatchGroupE, hg, hx, hnn])
  | ldVxDt | ldVxK | ldDtVx | ldStVx | addI | ldF | ldB | stRegs | ldRegs =>
    exact decode_formXNN (fun f hg hx hnn => by simp [dispatch, dispatchGroupF, hg, hx, hnn])

/-- Settles O1: the two bytes are the encoded word, and `decode_encode` reads it. -/
theorem encodedBytesDecodeBack : Obligations.EncodedBytesDecodeBack := by
  unfold Obligations.EncodedBytesDecodeBack
  intro i rest
  rw [decodeBytes_opcodeBytes, decode_encode]

end Sys2Proof
end

section
/-! O34, O35, O54: what the two storing instructions leave in memory (20_memory.md R43, R44, R49, R57; 42_index_memory.md
R143 to R146). -/

namespace Sys2Proof.Machine

variable {s t : State} {x : Nibble}

/-! ## The registers of a dump -/

@[simp] theorem State.length_regsUpTo (s : State) (x : Nibble) : (s.regsUpTo x).length = x.toNat + 1 := by
  simp only [State.regsUpTo, List.length_take, Vector.length_toList]
  omega

@[simp] theorem State.getElem_regsUpTo (s : State) (r : Nibble) (h : r.toNat < (s.regsUpTo x).length) :
    (s.regsUpTo x)[r.toNat] = s.reg r := by
  simp [State.regsUpTo, State.reg]

theorem mem_of_exec_stRegs (h : exec (.stRegs x) s = .next t) :
    t.mem = memWriteAll s.mem (s.indexed 0) (s.regsUpTo x) := by
  cases h
  rfl

/-- A register of the dump is read back at its address. -/
theorem memRead_stRegs (hm : Memory.wf s.mem = true) (h : exec (.stRegs x) s = .next t) {r : Nibble}
    (hr : r.toNat ≤ x.toNat) : memRead t.mem (s.indexed r.toNat) = s.reg r := by
  have hlen : r.toNat < (s.regsUpTo x).length := by rw [State.length_regsUpTo]; omega
  have hsize : (s.regsUpTo x).length ≤ Config.memSize := by rw [State.length_regsUpTo, Config.memSize]; omega
  rw [mem_of_exec_stRegs h]
  exact (memRead_memWriteAll_inside _ hm (s.indexed 0) r.toNat hlen hsize).trans (s.getElem_regsUpTo r hlen)

/-- Settles O34: each loaded register reads the address its own dumped value was stored at. -/
theorem dumpThenLoadGivesRegistersBack : Obligations.DumpThenLoadGivesRegistersBack := by
  unfold Obligations.DumpThenLoadGivesRegistersBack
  intro s x hm
  refine ⟨_, rfl, fun t' hmem hi => ⟨_, rfl, fun r hr => ?_⟩⟩
  rw [State.reg_bumpIndex, State.reg_loadRegs _ (by omega), if_pos (by omega), hmem, State.indexed, hi]
  exact memRead_stRegs hm rfl hr

/-- Settles O35: each byte of the fetch is a register of the dump, read back at a congruent address. -/
theorem storeIsSeenByFetch : Obligations.StoreIsSeenByFetch := by
  unfold Obligations.StoreIsSeenByFetch
  intro s t x p k hm h hk hp
  have hread : ∀ j ≤ x.toNat, ∀ a, effective a = effective (s.indexed j) →
      memRead t.mem a = s.reg (BitVec.ofNat 4 j) := by
    intro j hj a ha
    have hj' : (BitVec.ofNat 4 j).toNat = j := by rw [BitVec.toNat_ofNat]; omega
    rw [memRead_congr _ ha, ← memRead_stRegs hm h (r := BitVec.ofNat 4 j) (by omega), hj']
  have hhi : effective p.toNat = effective (s.indexed k) := hp
  have hlo : effective (p.toNat + 1) = effective (s.indexed (k + 1)) := by
    simp only [effective, State.indexed, Config.memSize]; omega
  rw [State.fetch, hread k (by omega) _ hhi, hread (k + 1) (by omega) _ hlo]
  rfl

/-! ## Bytes outside a store -/

/-- Bytes stored at the index leave every address outside their span alone. -/
theorem memRead_storeAtIndex_outside (hm : Memory.wf s.mem = true) {l : List Byte} {a : Nat}
    (ha : ∀ k < l.length, effective (s.indexed k) ≠ effective a) :
    memRead (s.storeAtIndex l).mem a = memRead s.mem a :=
  memRead_memWriteAll_outside l hm (s.indexed 0) a ha

/-- Settles O54: the two storing instructions by their span, every other one by its frame. -/
theorem memoryChangesOnlyWhereStored : Obligations.MemoryChangesOnlyWhereStored := by
  unfold Obligations.MemoryChangesOnlyWhereStored
  intro i s t a hm h ha
  cases i with
  | ldB x => cases h; exact memRead_storeAtIndex_outside hm ha
  | stRegs x => cases h; exact memRead_storeAtIndex_outside hm (by rwa [State.length_regsUpTo])
  | _ => exact exec_sameExcept h .mem (by simp [touches]) a

end Sys2Proof.Machine
end

section
/-! O36: the bits of `I`, `PC` and return addresses above the low 12 (20_memory.md R44; 42_index_memory.md R146; log 6,
log 7). `SameUpToAddressWrap` is a simulation: each value an instruction reads through the address generator is the same
in both states, and each address it computes is the same up to the wrap. -/

namespace Sys2Proof.Machine

/-! ## Addresses up to the wrap -/

theorem effective_add_congr {a b : Nat} (k : Nat) (h : effective a = effective b) :
    effective (a + k) = effective (b + k) := Nat.ModEq.add_right k h

/-- A 16-bit sum wraps at a multiple of the memory's size. -/
theorem effective_word_add_congr {a b : Word} (w : Word) (h : effective a.toNat = effective b.toNat) :
    effective (a + w).toNat = effective (b + w).toNat := by
  simp only [effective, Config.memSize, BitVec.toNat_add] at h ⊢
  omega

theorem effective_word_sub_congr {a b : Word} (w : Word) (h : effective a.toNat = effective b.toNat) :
    effective (a - w).toNat = effective (b - w).toNat := by
  rw [BitVec.sub_eq_add_neg, BitVec.sub_eq_add_neg]
  exact effective_word_add_congr _ h

/-- A sprite's rows are read through the address generator. -/
theorem drawRows_congr (m : Memory) {a b : Nat} (h : effective a = effective b) (x0 y0 count r : Nat)
    (dc : Display × Bool) : drawRows m a x0 y0 count r dc = drawRows m b x0 y0 count r dc := by
  induction count generalizing r dc with
  | zero => rfl
  | succ n ih => rw [drawRows, drawRows, memRead_congr m (effective_add_congr r h), ih]

/-! ## Related states -/

/-- The state with other values in `I`, `PC` and the stack entries. -/
def State.withAddresses (s : State) (i pc : Word) (stack : Vector Word 12) : State :=
  { s with i := i, pc := pc, stack := stack }

/-- Two stacks agree up to the wrap, entry by entry. -/
def StackWrapEq (st st' : Vector Word 12) : Prop := ∀ k (h : k < 12), effective st'[k].toNat = effective st[k].toNat

theorem StackWrapEq.set {st st' : Vector Word 12} (h : StackWrapEq st st') {k : Nat} (hk : k < 12) {w w' : Word}
    (hw : effective w'.toNat = effective w.toNat) : StackWrapEq (st.set k w hk) (st'.set k w' hk) := by
  intro j hj
  rw [Vector.getElem_set, Vector.getElem_set]
  split
  · exact hw
  · exact h j hj

variable {s t : State}

/-- A related state is the first one with other addresses, each equal to the old one up to the wrap. -/
theorem SameUpToAddressWrap.eq_withAddresses (h : SameUpToAddressWrap s t) :
    ∃ i pc stack, t = s.withAddresses i pc stack ∧ effective i.toNat = effective s.i.toNat
      ∧ effective pc.toNat = effective s.pc.toNat ∧ StackWrapEq s.stack stack :=
  ⟨t.i, t.pc, t.stack, h⟩

/-! ## The shared operations -/

theorem SameUpToAddressWrap.advance (h : SameUpToAddressWrap s t) : SameUpToAddressWrap s.advance t.advance := by
  obtain ⟨i, pc, stack, rfl, hi, hpc, hst⟩ := h.eq_withAddresses
  exact ⟨rfl, hi, effective_word_add_congr 2 hpc, hst⟩

theorem SameUpToAddressWrap.raise (h : SameUpToAddressWrap s t) (c : Cause) :
    SameUpToAddressWrap (s.raise c) (t.raise c) := by
  obtain ⟨i, pc, stack, rfl, hi, hpc, hst⟩ := h.eq_withAddresses
  exact ⟨rfl, hi, effective_word_sub_congr 2 hpc, hst⟩

theorem SameUpToAddressWrap.skipIf (h : SameUpToAddressWrap s t) (c : Bool) :
    SameUpToAddressWrap (s.skipIf c) (t.skipIf c) := by
  obtain ⟨i, pc, stack, rfl, hi, hpc, hst⟩ := h.eq_withAddresses
  cases c with
  | false => exact ⟨rfl, hi, hpc, hst⟩
  | true => exact ⟨rfl, hi, effective_word_add_congr 2 hpc, hst⟩

theorem SameUpToAddressWrap.bumpIndex (h : SameUpToAddressWrap s t) (x : Nibble) :
    SameUpToAddressWrap (s.bumpIndex x) (t.bumpIndex x) := by
  obtain ⟨i, pc, stack, rfl, hi, hpc, hst⟩ := h.eq_withAddresses
  have hinc : (s.withAddresses i pc stack).lsIncI = s.lsIncI := rfl
  refine ⟨rfl, ?_, hpc, hst⟩
  rw [State.bumpIndex_i, State.bumpIndex_i, hinc]
  split
  · exact effective_word_add_congr _ hi
  · exact hi

theorem SameUpToAddressWrap.storeAtIndex (h : SameUpToAddressWrap s t) (l : List Byte) :
    SameUpToAddressWrap (s.storeAtIndex l) (t.storeAtIndex l) := by
  obtain ⟨i, pc, stack, rfl, hi, hpc, hst⟩ := h.eq_withAddresses
  have hmem := memWriteAll_congr l s.mem (effective_add_congr 0 hi)
  exact ⟨congrArg (fun m => { s.withAddresses i pc stack with mem := m }) hmem, hi, hpc, hst⟩

/-- A byte read through the address generator is the same in both states. -/
theorem SameUpToAddressWrap.setReg_memRead (h : SameUpToAddressWrap s t) (x : Nibble) (m : Memory) {a b : Nat}
    (hab : effective b = effective a) : SameUpToAddressWrap (s.setReg x (memRead m a)) (t.setReg x (memRead m b)) := by
  obtain ⟨i, pc, stack, rfl, hi, hpc, hst⟩ := h.eq_withAddresses
  rw [memRead_congr m hab]
  exact ⟨rfl, hi, hpc, hst⟩

theorem SameUpToAddressWrap.loadRegs (h : SameUpToAddressWrap s t) (n : Nat) :
    SameUpToAddressWrap (s.loadRegs n) (t.loadRegs n) := by
  induction n with
  | zero => exact h
  | succ n ih =>
    obtain ⟨i, pc, stack, rfl, hi, -, -⟩ := h.eq_withAddresses
    exact ih.setReg_memRead _ s.mem (effective_add_congr n hi)

theorem SameUpToAddressWrap.sprite_eq (h : SameUpToAddressWrap s t) (x y n : Nibble) :
    t.sprite x y n = s.sprite x y n := by
  obtain ⟨i, pc, stack, rfl, hi, -, -⟩ := h.eq_withAddresses
  exact drawRows_congr s.mem (effective_add_congr 0 hi) _ _ _ _ _

theorem SameUpToAddressWrap.fetch_eq (h : SameUpToAddressWrap s t) : t.fetch = s.fetch := by
  obtain ⟨i, pc, stack, rfl, -, hpc, -⟩ := h.eq_withAddresses
  exact congrArg₂ opcodeOf (memRead_congr s.mem hpc) (memRead_congr s.mem (effective_add_congr 1 hpc))

theorem SameUpToAddressWrap.status_eq (h : SameUpToAddressWrap s t) : t.status = s.status := by
  obtain ⟨i, pc, stack, rfl, -⟩ := h.eq_withAddresses
  rfl

/-! ## The instructions -/

theorem execRet_sameUpToAddressWrap (h : SameUpToAddressWrap s t) :
    OutcomesRelated SameUpToAddressWrap (execRet s) (execRet t) := by
  obtain ⟨i, pc, stack, rfl, hi, hpc, hst⟩ := h.eq_withAddresses
  by_cases hs : s.sp.val = 0
  · have hempty : s.sp = 0 := Fin.ext hs
    rw [execRet_empty hempty, execRet_empty (s := s.withAddresses i pc stack) hempty]
    exact h.raise _
  · rw [execRet_used hs, execRet_used (s := s.withAddresses i pc stack) hs]
    exact ⟨rfl, hi, hst _ _, hst⟩

theorem execCall_sameUpToAddressWrap (nnn : Imm12) (h : SameUpToAddressWrap s t) :
    OutcomesRelated SameUpToAddressWrap (execCall nnn s) (execCall nnn t) := by
  obtain ⟨i, pc, stack, rfl, hi, hpc, hst⟩ := h.eq_withAddresses
  by_cases hs : s.sp.val < 12
  · rw [execCall_room nnn hs, execCall_room (s := s.withAddresses i pc stack) nnn hs]
    exact ⟨rfl, hi, rfl, hst.set hs hpc⟩
  · have hfull : s.sp = 12 := State.sp_eq_twelve hs
    rw [execCall_full nnn hfull, execCall_full (s := s.withAddresses i pc stack) nnn hfull]
    exact h.raise _

theorem execLdVxK_sameUpToAddressWrap (x : Nibble) (h : SameUpToAddressWrap s t) :
    OutcomesRelated SameUpToAddressWrap (execLdVxK x s) (execLdVxK x t) := by
  obtain ⟨i, pc, stack, rfl, hi, hpc, hst⟩ := h.eq_withAddresses
  cases hk : s.firstKey with
  | some k =>
    rw [execLdVxK_some x hk, execLdVxK_some (s := s.withAddresses i pc stack) x hk]
    exact ⟨rfl, hi, hpc, hst⟩
  | none =>
    rw [execLdVxK_none x hk, execLdVxK_none (s := s.withAddresses i pc stack) x hk]
    exact ⟨rfl, hi, effective_word_sub_congr 2 hpc, hst⟩

theorem execDrw_sameUpToAddressWrap (x y n : Nibble) (h : SameUpToAddressWrap s t) :
    OutcomesRelated SameUpToAddressWrap (execDrw x y n s) (execDrw x y n t) := by
  rw [execDrw, execDrw, h.sprite_eq]
  obtain ⟨i, pc, stack, rfl, hi, hpc, hst⟩ := h.eq_withAddresses
  exact ⟨rfl, hi, hpc, hst⟩

/-- Every instruction takes related states to related outcomes. The last case is the instructions that neither read nor
write an address: their update commutes with the change of addresses by definition. -/
theorem exec_sameUpToAddressWrap (ins : Instr) (h : SameUpToAddressWrap s t) :
    OutcomesRelated SameUpToAddressWrap (exec ins s) (exec ins t) := by
  obtain ⟨i, pc, stack, rfl, hi, hpc, hst⟩ := h.eq_withAddresses
  cases ins with
  | ret => exact execRet_sameUpToAddressWrap h
  | call nnn => exact execCall_sameUpToAddressWrap nnn h
  | ldVxK x => exact execLdVxK_sameUpToAddressWrap x h
  | drw x y n => exact execDrw_sameUpToAddressWrap x y n h
  | jp | jpV0 => exact ⟨rfl, hi, rfl, hst⟩
  | seImm | sneImm | seReg | sneReg | skp | sknp => exact h.skipIf _
  | ldI | ldF => exact ⟨rfl, rfl, hpc, hst⟩
  | addI => exact ⟨rfl, effective_word_add_congr _ hi, hpc, hst⟩
  | ldB x => exact h.storeAtIndex (bcdDigits (s.reg x))
  | stRegs x => exact (h.storeAtIndex (s.regsUpTo x)).bumpIndex x
  | ldRegs x => exact (h.loadRegs (x.toNat + 1)).bumpIndex x
  | _ => exact ⟨rfl, hi, hpc, hst⟩

/-- A step fetches the same opcode from related states and executes it on related states. -/
theorem step_sameUpToAddressWrap (h : SameUpToAddressWrap s t) :
    OutcomesRelated SameUpToAddressWrap (step s) (step t) := by
  have hfetch := h.fetch_eq
  obtain ⟨hfaulted, -, hloaded⟩ := State.status_congr h.status_eq
  cases hl : s.isLoaded with
  | false =>
    rw [step_notLoaded hl, step_notLoaded (hloaded.trans hl)]
    rfl
  | true =>
    cases hf : s.faulted with
    | true =>
      rw [step_faulted hl hf, step_faulted (hloaded.trans hl) (hfaulted.trans hf)]
      exact h
    | false =>
      cases hd : decode s.fetch with
      | instr ins =>
        rw [step_instr hl hf hd, step_instr (hloaded.trans hl) (hfaulted.trans hf) (hfetch ▸ hd)]
        exact exec_sameUpToAddressWrap ins h.advance
      | rejected r =>
        rw [step_miss hl hf hd, step_miss (hloaded.trans hl) (hfaulted.trans hf) (hfetch ▸ hd)]
        exact h.advance

/-- Settles O36: `SameUpToAddressWrap` is a simulation of `step` by itself. -/
theorem addressHighBitsAreInvisible : Obligations.AddressHighBitsAreInvisible := by
  unfold Obligations.AddressHighBitsAreInvisible
  intro s t h
  exact step_sameUpToAddressWrap h

end Sys2Proof.Machine
end

section
/-! O2, O3, O4: what the decoder answers on every 16-bit word (30_encoding.md R63, R69, R70, R73, R74). -/

namespace Sys2Proof

variable {op : Word} {i : Instr} {f : Fields}

/-! ## A word from its group, its sub-selector and its operands -/

theorem formNNN_of_group {g : Nibble} (hg : (fields op).g = g) : formNNN g (fields op).nnn = op :=
  hg ▸ formNNN_fields op

theorem formXNN_of_group {g : Nibble} (hg : (fields op).g = g) : formXNN g (fields op).x (fields op).nn = op :=
  hg ▸ formXNN_fields op

theorem formXYN_of_group {g : Nibble} (hg : (fields op).g = g) :
    formXYN g (fields op).x (fields op).y (fields op).n = op :=
  hg ▸ formXYN_fields op

theorem formXNN_of_byte {g : Nibble} {nn : Byte} (h : (fields op).g = g ∧ (fields op).nn = nn) :
    formXNN g (fields op).x nn = op := by
  obtain ⟨rfl, rfl⟩ := h
  exact formXNN_fields op

theorem formXYN_of_nibble {g n : Nibble} (h : (fields op).g = g ∧ (fields op).n = n) :
    formXYN g (fields op).x (fields op).y n = op := by
  obtain ⟨rfl, rfl⟩ := h
  exact formXYN_fields op

/-! ## Dispatch by group -/

theorem nibble_cases : ∀ g : Nibble, g = 0x0 ∨ g = 0x1 ∨ g = 0x2 ∨ g = 0x3 ∨ g = 0x4 ∨ g = 0x5 ∨ g = 0x6 ∨ g = 0x7
    ∨ g = 0x8 ∨ g = 0x9 ∨ g = 0xA ∨ g = 0xB ∨ g = 0xC ∨ g = 0xD ∨ g = 0xE ∨ g = 0xF := by decide

/-- What dispatch answers in each of the sixteen groups (30_encoding.md R63). -/
theorem dispatch_cases (f : Fields) :
    (f.g = 0x0 ∧ dispatch f = dispatchGroup0 f) ∨ (f.g = 0x1 ∧ dispatch f = some (.jp f.nnn))
      ∨ (f.g = 0x2 ∧ dispatch f = some (.call f.nnn)) ∨ (f.g = 0x3 ∧ dispatch f = some (.seImm f.x f.nn))
      ∨ (f.g = 0x4 ∧ dispatch f = some (.sneImm f.x f.nn)) ∨ (f.g = 0x5 ∧ dispatch f = some (.seReg f.x f.y))
      ∨ (f.g = 0x6 ∧ dispatch f = some (.ldImm f.x f.nn)) ∨ (f.g = 0x7 ∧ dispatch f = some (.addImm f.x f.nn))
      ∨ (f.g = 0x8 ∧ dispatch f = dispatchGroup8 f) ∨ (f.g = 0x9 ∧ dispatch f = some (.sneReg f.x f.y))
      ∨ (f.g = 0xA ∧ dispatch f = some (.ldI f.nnn)) ∨ (f.g = 0xB ∧ dispatch f = some (.jpV0 f.nnn))
      ∨ (f.g = 0xC ∧ dispatch f = some (.rnd f.x f.nn)) ∨ (f.g = 0xD ∧ dispatch f = some (.drw f.x f.y f.n))
      ∨ (f.g = 0xE ∧ dispatch f = dispatchGroupE f) ∨ (f.g = 0xF ∧ dispatch f = dispatchGroupF f) := by
  rcases nibble_cases f.g with hg | hg | hg | hg | hg | hg | hg | hg | hg | hg | hg | hg | hg | hg | hg | hg <;>
    simp [dispatch, hg]

/-! ## Words that an instruction's decoding cannot tell from its encoding -/

/-- The word is the instruction's encoding in every bit the instruction's decoding looks at. -/
def Agrees (op : Word) (i : Instr) : Prop := encode i &&& usedBits i = op &&& usedBits i

theorem agrees_of_encode_eq (h : encode i = op) : Agrees op i := congrArg (· &&& usedBits i) h

/-- Group 0x0 looks at the group and the low byte (30_encoding.md R70). -/
theorem agrees_iff_of_byte (hu : usedBits i = 0xF0FF#16) :
    Agrees op i ↔ (fields (encode i)).g = (fields op).g ∧ (fields (encode i)).nn = (fields op).nn := by
  simp only [Agrees, hu, and_F0FF, formXNN_inj, true_and]

/-- The register skips look at all but the low nibble (30_encoding.md R73). -/
theorem agrees_iff_of_skip (hu : usedBits i = 0xFFF0#16) :
    Agrees op i ↔ (fields (encode i)).g = (fields op).g ∧ (fields (encode i)).x = (fields op).x
      ∧ (fields (encode i)).y = (fields op).y := by
  simp only [Agrees, hu, and_FFF0, formXYN_inj, and_true]

/-- Every other instruction looks at the whole word. -/
theorem agrees_iff_of_allBits (hu : usedBits i = 0xFFFF#16) : Agrees op i ↔ encode i = op := by
  have hmask (v : Word) : v &&& 0xFFFF#16 = v := BitVec.and_allOnes
  simp only [Agrees, hu, hmask]

/-- A word of group 0x0 with the low byte of `CLS` or `RET` agrees with it. -/
theorem agrees_of_byte {nn : Byte} (hi : encode i = formXNN 0x0 0 nn) (hu : usedBits i = 0xF0FF#16)
    (h : (fields op).g = 0x0 ∧ (fields op).nn = nn) : Agrees op i := by
  obtain ⟨hg, hnn⟩ := h
  obtain ⟨hg', -, hnn'⟩ := fields_formXNN 0x0 0 nn
  rw [agrees_iff_of_byte hu, hi, hg, hnn]
  exact ⟨hg', hnn'⟩

/-- A word of a register skip's group agrees with the skip on its registers. -/
theorem agrees_of_skip {g : Nibble} (hi : encode i = formXYN g (fields op).x (fields op).y 0)
    (hu : usedBits i = 0xFFF0#16) (hg : (fields op).g = g) : Agrees op i := by
  obtain ⟨hg', hx', hy', -⟩ := fields_formXYN g (fields op).x (fields op).y 0
  rw [agrees_iff_of_skip hu, hi, hg]
  exact ⟨hg', hx', hy'⟩

/-! ## A dispatched instruction agrees with its word -/

theorem agrees_of_dispatchGroup0 (hg : (fields op).g = 0x0) (h : dispatchGroup0 (fields op) = some i) : Agrees op i := by
  unfold dispatchGroup0 at h
  split_ifs at h with hnn hnn <;> cases h <;> exact agrees_of_byte rfl rfl ⟨hg, hnn⟩

theorem agrees_of_dispatchGroup8 (hg : (fields op).g = 0x8) (h : dispatchGroup8 (fields op) = some i) : Agrees op i := by
  unfold dispatchGroup8 at h
  split_ifs at h with hn hn hn hn hn hn hn hn hn <;> cases h <;>
    exact agrees_of_encode_eq (formXYN_of_nibble ⟨hg, hn⟩)

theorem agrees_of_dispatchGroupE (hg : (fields op).g = 0xE) (h : dispatchGroupE (fields op) = some i) : Agrees op i := by
  unfold dispatchGroupE at h
  split_ifs at h with hnn hnn <;> cases h <;> exact agrees_of_encode_eq (formXNN_of_byte ⟨hg, hnn⟩)

theorem agrees_of_dispatchGroupF (hg : (fields op).g = 0xF) (h : dispatchGroupF (fields op) = some i) : Agrees op i := by
  unfold dispatchGroupF at h
  split_ifs at h with hnn hnn hnn hnn hnn hnn hnn hnn hnn <;> cases h <;>
    exact agrees_of_encode_eq (formXNN_of_byte ⟨hg, hnn⟩)

/-- A word agrees with the instruction dispatch selects for it, group by group. -/
theorem agrees_of_dispatch (h : dispatch (fields op) = some i) : Agrees op i := by
  rcases dispatch_cases (fields op) with
    ⟨hg, hd⟩ | ⟨hg, hd⟩ | ⟨hg, hd⟩ | ⟨hg, hd⟩ | ⟨hg, hd⟩ | ⟨hg, hd⟩ | ⟨hg, hd⟩ | ⟨hg, hd⟩ | ⟨hg, hd⟩ | ⟨hg, hd⟩
      | ⟨hg, hd⟩ | ⟨hg, hd⟩ | ⟨hg, hd⟩ | ⟨hg, hd⟩ | ⟨hg, hd⟩ | ⟨hg, hd⟩ <;> rw [hd] at h
  · exact agrees_of_dispatchGroup0 hg h
  · cases h; exact agrees_of_encode_eq (formNNN_of_group hg)
  · cases h; exact agrees_of_encode_eq (formNNN_of_group hg)
  · cases h; exact agrees_of_encode_eq (formXNN_of_group hg)
  · cases h; exact agrees_of_encode_eq (formXNN_of_group hg)
  · cases h; exact agrees_of_skip rfl rfl hg
  · cases h; exact agrees_of_encode_eq (formXNN_of_group hg)
  · cases h; exact agrees_of_encode_eq (formXNN_of_group hg)
  · exact agrees_of_dispatchGroup8 hg h
  · cases h; exact agrees_of_skip rfl rfl hg
  · cases h; exact agrees_of_encode_eq (formNNN_of_group hg)
  · cases h; exact agrees_of_encode_eq (formNNN_of_group hg)
  · cases h; exact agrees_of_encode_eq (formXNN_of_group hg)
  · cases h; exact agrees_of_encode_eq (formXYN_of_group hg)
  · exact agrees_of_dispatchGroupE hg h
  · exact agrees_of_dispatchGroupF hg h

/-- The encoder writes 0 into the bits 30_encoding.md R70 and R73 ignore. -/
theorem encode_and_ignoredBits (i : Instr) : encode i &&& ~~~usedBits i = 0 := by
  have hnone (v : Word) : v &&& ~~~0xFFFF#16 = 0 := BitVec.and_zero
  have hlow (g x y : Nibble) : formXYN g x y 0#4 &&& ~~~0xFFF0#16 = 0 := by
    rw [show ~~~0xFFF0#16 = formXYN 0#4 0#4 0#4 0xF#4 by decide, formXYN_and]
    simp only [BitVec.and_zero, BitVec.zero_and]
    rfl
  cases i with
  | cls | ret => decide
  | seReg x y | sneReg x y => exact hlow _ x y
  | _ => exact hnone _

/-- Settles O2: `agrees_of_dispatch` for the bits looked at, `encode_and_ignoredBits` for the others. -/
theorem decodedWordEncodesBack : Obligations.DecodedWordEncodesBack := by
  unfold Obligations.DecodedWordEncodesBack
  intro op i h
  exact ⟨agrees_of_dispatch (decode_eq_instr.mp h), encode_and_ignoredBits i⟩

/-! ## A word that agrees with an instruction decodes to it -/

/-- Decoding sees no bit in which a word may differ from an instruction it agrees with. -/
theorem decode_of_agrees (h : Agrees op i) : decode op = .instr i := by
  cases i with
  | cls | ret =>
    obtain ⟨hg, hnn⟩ := (agrees_iff_of_byte rfl).mp h
    exact decode_eq_instr.mpr (by simp [dispatch, dispatchGroup0, ← hg, ← hnn, encode, fields_formXNN])
  | seReg x y | sneReg x y =>
    obtain ⟨hg, hx, hy⟩ := (agrees_iff_of_skip rfl).mp h
    exact decode_eq_instr.mpr (by simp [dispatch, ← hg, ← hx, ← hy, encode, fields_formXYN])
  | _ => rw [← (agrees_iff_of_allBits rfl).mp h, decode_encode]

/-! ## The opcode map -/

/-- A row with the group mask tests the group. -/
theorem group_of_and_F000 {w : Word} (h : op &&& 0xF000#16 = w) : (fields op).g = (fields w).g := by
  rw [← h, and_F000, (fields_formXNN _ _ _).1]

/-- A row with the low byte in its mask tests the group and that byte. -/
theorem group_byte_of_and_F0FF {w : Word} (h : op &&& 0xF0FF#16 = w) :
    (fields op).g = (fields w).g ∧ (fields op).nn = (fields w).nn := by
  obtain ⟨hg, -, hnn⟩ := fields_formXNN (fields op).g 0 (fields op).nn
  rw [← h, and_F0FF, hg, hnn]
  exact ⟨rfl, rfl⟩

/-- A row with the low nibble in its mask tests the group and that nibble. -/
theorem group_nibble_of_and_F00F {w : Word} (h : op &&& 0xF00F#16 = w) :
    (fields op).g = (fields w).g ∧ (fields op).n = (fields w).n := by
  obtain ⟨hg, -, -, hn⟩ := fields_formXYN (fields op).g 0 0 (fields op).n
  rw [← h, and_F00F, hg, hn]
  exact ⟨rfl, rfl⟩

/-- A word agrees with the instruction that a row selecting it builds, row by row in the map's order: each row's mask
gives the group and the sub-selector, and the row's format the rest of the word. -/
theorem agrees_of_selects : ∀ r ∈ rows, r.selects op = true → Agrees op (r.build (fields op)) := by
  have nnn {w i} (hi : formNNN (fields w).g (fields op).nnn = encode i) (h : op &&& 0xF000#16 = w) : Agrees op i :=
    agrees_of_encode_eq (hi ▸ formNNN_of_group (group_of_and_F000 h))
  have xnn {w i} (hi : formXNN (fields w).g (fields op).x (fields op).nn = encode i) (h : op &&& 0xF000#16 = w) :
      Agrees op i :=
    agrees_of_encode_eq (hi ▸ formXNN_of_group (group_of_and_F000 h))
  have byte {w i} (hi : formXNN (fields w).g (fields op).x (fields w).nn = encode i) (h : op &&& 0xF0FF#16 = w) :
      Agrees op i :=
    agrees_of_encode_eq (hi ▸ formXNN_of_byte (group_byte_of_and_F0FF h))
  have nibble {w i} (hi : formXYN (fields w).g (fields op).x (fields op).y (fields w).n = encode i)
      (h : op &&& 0xF00F#16 = w) : Agrees op i :=
    agrees_of_encode_eq (hi ▸ formXYN_of_nibble (group_nibble_of_and_F00F h))
  simp only [rows, rowsLow, rowsMid, rowsHigh, List.forall_mem_append, List.forall_mem_cons, List.not_mem_nil,
    false_imp_iff, implies_true, and_true, Row.selects, beq_iff_eq]
  exact ⟨⟨⟨fun h => agrees_of_byte rfl rfl (group_byte_of_and_F0FF h),
      fun h => agrees_of_byte rfl rfl (group_byte_of_and_F0FF h), nnn rfl, nnn rfl, xnn rfl, xnn rfl,
      fun h => agrees_of_skip rfl rfl (group_of_and_F000 h), xnn rfl, xnn rfl⟩,
    ⟨nibble rfl, nibble rfl, nibble rfl, nibble rfl, nibble rfl, nibble rfl, nibble rfl, nibble rfl, nibble rfl,
      fun h => agrees_of_skip rfl rfl (group_of_and_F000 h), nnn rfl, nnn rfl, xnn rfl,
      fun h => agrees_of_encode_eq (formXYN_of_group (group_of_and_F000 h))⟩⟩,
    ⟨byte rfl, byte rfl, byte rfl, byte rfl, byte rfl, byte rfl, byte rfl, byte rfl, byte rfl, byte rfl, byte rfl⟩⟩

/-- The encoder's word meets its row's pattern under the row's mask, a case for each kind of mask. -/
theorem encode_and_mask (i : Instr) : encode i &&& (Laws.matchMask i).2 = (Laws.matchMask i).1 := by
  cases i with
  | jp | call | ldI | jpV0 => exact Laws.EncodeMatches.group_nnn _ _
  | seImm | sneImm | ldImm | addImm | rnd => exact Laws.EncodeMatches.group_xnn _ _ _
  | seReg | sneReg | drw => exact Laws.EncodeMatches.group_xyn _ _ _ _
  | ldReg | orReg | andReg | xorReg | addReg | subReg | shr | subnReg | shl =>
    exact Laws.EncodeMatches.sub_nibble _ _ _ _
  | cls | ret | skp | sknp | ldVxDt | ldVxK | ldDtVx | ldStVx | addI | ldF | ldB | stRegs | ldRegs =>
    exact Laws.EncodeMatches.sub_byte _ _ _

/-- Every instruction has its row in the map. -/
theorem exists_row_of_instr (i : Instr) :
    ∃ r ∈ rows, r.pattern = (Laws.matchMask i).1 ∧ r.mask = (Laws.matchMask i).2 := by
  have hany : rows.any (fun r => r.pattern == (Laws.matchMask i).1 && r.mask == (Laws.matchMask i).2) = true := by
    cases i <;> rfl
  simpa only [List.any_eq_true, Bool.and_eq_true, beq_iff_eq] using hany

/-- Decoding looks at all the bits that select the row. -/
theorem usedBits_and_mask (i : Instr) : usedBits i &&& (Laws.matchMask i).2 = (Laws.matchMask i).2 := by
  have hall (m : Word) : 0xFFFF#16 &&& m = m := BitVec.allOnes_and
  cases i with
  | cls | ret => exact BitVec.and_self
  | seReg | sneReg => exact (by decide : 0xFFF0#16 &&& 0xF000#16 = 0xF000#16)
  | _ => exact hall _

/-- A word that agrees with an instruction is selected by the instruction's row. -/
theorem exists_row_of_agrees (h : Agrees op i) : ∃ r ∈ rows, r.selects op = true := by
  obtain ⟨r, hr, hpattern, hmask⟩ := exists_row_of_instr i
  refine ⟨r, hr, beq_iff_eq.mpr ?_⟩
  calc op &&& r.mask
    _ = op &&& usedBits i &&& (Laws.matchMask i).2 := by rw [hmask, BitVec.and_assoc, usedBits_and_mask]
    _ = encode i &&& usedBits i &&& (Laws.matchMask i).2 := by rw [h]
    _ = r.pattern := by rw [BitVec.and_assoc, usedBits_and_mask, encode_and_mask, hpattern]

theorem rows_pairwise_disjoint : rows.Pairwise (fun r r' => r.disjoint r' = true) := by decide

/-- Two disjoint rows differ in a bit both test, so no word has it both ways. -/
theorem not_selects_of_disjoint {r r' : Row} (h : r.disjoint r' = true) (hs : r.selects op = true) :
    ¬ r'.selects op = true := by
  intro hs'
  have hr : op &&& r.mask = r.pattern := beq_iff_eq.mp hs
  have hr' : op &&& r'.mask = r'.pattern := beq_iff_eq.mp hs'
  refine bne_iff_ne.mp h ?_
  have hcommon (m m' : Word) : op &&& m &&& (m &&& m') = op &&& (m &&& m') := by
    rw [BitVec.and_assoc, ← BitVec.and_assoc m, BitVec.and_self]
  rw [← hr, ← hr', hcommon, BitVec.and_comm r.mask, hcommon]

/-- If both rows select the word, they have the same mnemonic. -/
def MnemonicsAgree (op : Word) (r r' : Row) : Prop :=
  r.selects op = true → r'.selects op = true → r.mnemonic = r'.mnemonic

/-- A row agrees with itself, and two different rows are disjoint. -/
theorem mnemonicsAgree_of_mem_rows {r r' : Row} (hr : r ∈ rows) (hr' : r' ∈ rows) : MnemonicsAgree op r r' := by
  have hsymm : Std.Symm (MnemonicsAgree op) := ⟨fun _ _ h hs hs' => (h hs' hs).symm⟩
  have hpair : rows.Pairwise (MnemonicsAgree op) :=
    rows_pairwise_disjoint.imp (fun hd hs hs' => absurd hs' (not_selects_of_disjoint hd hs))
  exact hpair.forall_of_forall (fun _ _ _ _ => rfl) hr hr'

/-- Settles O3: the selecting row's instruction agrees with the word, and a word no row selects agrees with none. -/
theorem decodeFollowsOpcodeMap : Obligations.DecodeFollowsOpcodeMap := by
  unfold Obligations.DecodeFollowsOpcodeMap
  refine ⟨fun op => ?_, fun op r r' hr hr' => mnemonicsAgree_of_mem_rows hr hr'⟩
  cases hf : rows.find? (fun r => r.selects op) with
  | some r =>
    have hs : r.selects op = true := List.find?_some (p := (Row.selects · op)) hf
    exact decode_of_agrees (agrees_of_selects r (List.mem_of_find?_eq_some hf) hs)
  | none =>
    refine decode_eq_miss.mpr (Option.eq_none_iff_forall_ne_some.mpr fun i hi => ?_)
    obtain ⟨r, hr, hs⟩ := exists_row_of_agrees (agrees_of_dispatch hi)
    exact List.find?_eq_none.mp hf r hr hs

/-! ## The undefined opcodes -/

/-- A chain of selections misses where its first test and its rest do. -/
theorem ite_some_eq_none {c : Prop} [Decidable c] {a : Instr} {o : Option Instr} :
    (if c then some a else o) = none ↔ ¬ c ∧ o = none := by
  by_cases h : c <;> simp [h]

theorem dispatchGroup0_eq_none : dispatchGroup0 f = none ↔ f.nn ≠ 0xE0#8 ∧ f.nn ≠ 0xEE#8 := by
  simp [dispatchGroup0, ite_some_eq_none]

theorem dispatchGroup8_eq_none :
    dispatchGroup8 f = none ↔ (0x8 ≤ f.n.toNat ∧ f.n.toNat ≤ 0xD) ∨ f.n = 0xF#4 := by
  have hnibble : ∀ n : Nibble, n ∉ [0x0#4, 0x1#4, 0x2#4, 0x3#4, 0x4#4, 0x5#4, 0x6#4, 0x7#4, 0xE#4] ↔
      (0x8 ≤ n.toNat ∧ n.toNat ≤ 0xD) ∨ n = 0xF#4 := by decide
  rw [← hnibble]
  simp [dispatchGroup8, ite_some_eq_none]

theorem dispatchGroupE_eq_none : dispatchGroupE f = none ↔ f.nn ∉ [0x9E#8, 0xA1#8] := by
  simp [dispatchGroupE, ite_some_eq_none]

theorem dispatchGroupF_eq_none :
    dispatchGroupF f = none ↔ f.nn ∉ [0x07#8, 0x0A#8, 0x15#8, 0x18#8, 0x1E#8, 0x29#8, 0x33#8, 0x55#8, 0x65#8] := by
  simp [dispatchGroupF, ite_some_eq_none]

/-- Only the four groups with a sub-selector can miss. -/
theorem dispatch_eq_none : dispatch f = none ↔
    (f.g = 0x0 ∧ dispatchGroup0 f = none) ∨ (f.g = 0x8 ∧ dispatchGroup8 f = none)
      ∨ (f.g = 0xE ∧ dispatchGroupE f = none) ∨ (f.g = 0xF ∧ dispatchGroupF f = none) := by
  rcases dispatch_cases f with
    ⟨hg, hd⟩ | ⟨hg, hd⟩ | ⟨hg, hd⟩ | ⟨hg, hd⟩ | ⟨hg, hd⟩ | ⟨hg, hd⟩ | ⟨hg, hd⟩ | ⟨hg, hd⟩ | ⟨hg, hd⟩ | ⟨hg, hd⟩
      | ⟨hg, hd⟩ | ⟨hg, hd⟩ | ⟨hg, hd⟩ | ⟨hg, hd⟩ | ⟨hg, hd⟩ | ⟨hg, hd⟩ <;> simp [hg, hd]

/-- Settles O4: a miss is one of the four groups with a sub-selector, missing. -/
theorem undefinedOpcodesAreExactlyTheListed : Obligations.UndefinedOpcodesAreExactlyTheListed := by
  unfold Obligations.UndefinedOpcodesAreExactlyTheListed
  intro op
  rw [decode_eq_miss, dispatch_eq_none, dispatchGroup0_eq_none, dispatchGroup8_eq_none, dispatchGroupE_eq_none,
    dispatchGroupF_eq_none]
  rfl

end Sys2Proof
end

section
/-! O5: seven words of the spec, decoded (30_encoding.md R66, R69, R70, R73, R74). -/

namespace Sys2Proof

/-- Settles O5: each word is evaluated. -/
theorem writtenOutWordsDecode : Obligations.WrittenOutWordsDecode := by
  unfold Obligations.WrittenOutWordsDecode
  decide

end Sys2Proof
end

section
/-! O6: a word as a line of assembly, and the line's bytes (30_encoding.md R77, R78). -/

namespace Sys2Proof.Machine

theorem disassemble_of_instr {op : Word} {i : Instr} (h : decode op = .instr i) : disassemble op = .instr i := by
  rw [disassemble, h]

theorem disassemble_of_rejected {op : Word} {r : Reject} (h : decode op = .rejected r) : disassemble op = .dw op := by
  rw [disassemble, h]

theorem assemble_cons (l : AsmLine) (ls : List AsmLine) : assemble (l :: ls) = opcodeBytes l.word ++ assemble ls := rfl

/-- The decoder reads the first line's word and leaves the bytes of the other lines. -/
theorem decodeBytes_assemble_cons (l : AsmLine) (ls : List AsmLine) (rest : List Byte) :
    decodeBytes (assemble (l :: ls) ++ rest) = (decode l.word, assemble ls ++ rest) := by
  rw [assemble_cons, List.append_assoc, decodeBytes_opcodeBytes]

/-- Settles O6: `decodeBytes_assemble_cons` reads a line back, and `decode_encode` its word. -/
theorem wordsCanBeWrittenAndAssembled : Obligations.WordsCanBeWrittenAndAssembled := by
  unfold Obligations.WordsCanBeWrittenAndAssembled
  refine ⟨fun op rest => ⟨fun i h => ⟨disassemble_of_instr h, ?_⟩, fun r h => ⟨disassemble_of_rejected h, ?_⟩⟩,
    fun x => ⟨?_, ?_⟩⟩
  · rw [disassemble_of_instr h, decodeBytes_assemble_cons, AsmLine.word, decode_encode]
    rfl
  · rw [disassemble_of_rejected h]
    rfl
  · rw [assemble_cons, decodeBytes_opcodeBytes, AsmLine.word, decode_encode]
  · rw [assemble_cons, decodeBytes_opcodeBytes, AsmLine.word, decode_encode]
    rfl

end Sys2Proof.Machine
end

section
/-! O7, O8, O9: the step by what it fetches (30_encoding.md R60, R61, R64; 60_exceptions.md R184). -/

namespace Sys2Proof.Machine

/-- Settles O7: the two bytes are `State.fetch`, and the advanced state is `State.advance`. -/
theorem stepRunsDecodedInstruction : Obligations.StepRunsDecodedInstruction := by
  unfold Obligations.StepRunsDecodedInstruction
  rintro s i ⟨hloaded, hfaulted⟩ h
  exact step_instr hloaded hfaulted h

/-- Settles O8: the step answers `State.advance`. -/
theorem dispatchMissIsNoop : Obligations.DispatchMissIsNoop := by
  unfold Obligations.DispatchMissIsNoop
  rintro s r ⟨hloaded, hfaulted⟩ h
  exact step_miss hloaded hfaulted h

/-- A loaded core answers a next state: halted, executing (`exec_next`), or past an undefined opcode. -/
theorem step_next {s : State} (hl : s.isLoaded = true) : ∃ t, step s = .next t := by
  cases hf : s.faulted with
  | true => exact ⟨s, step_faulted hl hf⟩
  | false =>
    cases hd : decode s.fetch with
    | instr i =>
      obtain ⟨t, ht⟩ := exec_next i s.advance
      exact ⟨t, (step_instr hl hf hd).trans ht⟩
    | rejected r => exact ⟨s.advance, step_miss hl hf hd⟩

/-- Settles O9: `step_notLoaded` before a Load, `step_next` after it. -/
theorem stepStopsExactlyBeforeLoad : Obligations.StepStopsExactlyBeforeLoad := by
  unfold Obligations.StepStopsExactlyBeforeLoad
  intro s
  exact ⟨step_notLoaded, step_next⟩

end Sys2Proof.Machine
end

section
/-! O15, O16, O18, O20: the jumps, `CALL` and `RET` (40_control_flow.md R90, R91, R92, R97, R100). The first layer serves
O41 too. -/

namespace Sys2Proof.Machine

/-! ## Targets and `PC` -/

/-- A target is its 12-bit field, unsigned. -/
theorem toNat_target (nnn : Imm12) : (nnn.setWidth 16 : Word).toNat = nnn.toNat :=
  BitVec.toNat_setWidth_of_le (by decide)

/-- The sum of `JP V0` fits in 16 bits, so that it is not reduced (log 7). -/
theorem toNat_targetPlus (nnn : Imm12) (b : Byte) :
    (nnn.setWidth 16 + b.setWidth 16 : Word).toNat = nnn.toNat + b.toNat := by
  have hnnn := nnn.isLt
  have hb := b.isLt
  rw [BitVec.toNat_add, toNat_target, BitVec.toNat_setWidth_of_le (by decide)]
  omega

/-- A jump back to where the fetch was takes the fetch's advance away. -/
theorem State.jump_advance_self (s : State) : s.advance.jump s.pc = s := rfl

/-! ## The jumps -/

/-- Settles O15: each meaning is one `State.jump`. -/
theorem jumpsSetPc : Obligations.JumpsSetPc := by
  unfold Obligations.JumpsSetPc
  intro nnn s
  exact ⟨⟨_, rfl, toNat_target nnn, sameExcept_jump _⟩, ⟨_, rfl, toNat_targetPlus nnn (s.reg 0), sameExcept_jump _⟩⟩

/-! ## `CALL` and `RET` -/

/-- Settles O16: `execCall_room`, whose stack is one `Vector.set` at the old `SP`. -/
theorem callPushesReturnAddress : Obligations.CallPushesReturnAddress := by
  unfold Obligations.CallPushesReturnAddress
  intro nnn s hroom
  refine ⟨_, execCall_room nnn hroom, toNat_target nnn, rfl, fun k hk => ?_, sameExcept_callFrame _ _ _⟩
  simp only [Vector.getElem_set, eq_comm]

/-- Settles O18: `execRet_used`, whose entry is the one below `SP`. -/
theorem returnPopsAddress : Obligations.ReturnPopsAddress := by
  unfold Obligations.ReturnPopsAddress
  intro s hused
  refine ⟨_, execRet_used (Nat.ne_of_gt hused), fun k hk htop => ?_, Nat.sub_add_cancel hused, rfl,
    sameExcept_callFrame _ _ _⟩
  simp only [← htop, Nat.add_sub_cancel]

/-- Settles O20: the `CALL` leaves its advanced `PC` at the old `SP` (`callPushesReturnAddress`), which is the entry that
the `RET` takes (`returnPopsAddress`). -/
theorem callThenReturnResumes : Obligations.CallThenReturnResumes := by
  unfold Obligations.CallThenReturnResumes
  rintro nnn s t u ⟨hloaded, hfaulted⟩ hroom hcall hstep ⟨huLoaded, huFaulted⟩ hsp hstack hret
  obtain ⟨t', hexec, -, ht'sp, hpush, -⟩ := callPushesReturnAddress nnn s.advance hroom
  obtain rfl : t' = t := by
    rw [step_instr hloaded hfaulted hcall, hexec] at hstep
    exact Host.Outcome.next.inj hstep
  have husp : u.sp.val = s.sp.val + 1 := by rw [hsp]; exact ht'sp
  obtain ⟨w, hw, hpop, hwsp, -, hframe⟩ := returnPopsAddress u.advance (by rw [State.advance_sp, husp]; omega)
  have hentry : u.stack[s.sp.val] = s.pc + 2 := by
    simp only [hstack, hpush s.sp.val hroom, State.advance_sp, State.advance_pc, if_pos]
  refine ⟨w, (step_instr huLoaded huFaulted hret).trans hw, ?_, ?_, ?_⟩
  · exact (hpop s.sp.val hroom husp.symm).trans hentry
  · exact Fin.ext (Nat.succ.inj (hwsp.trans husp))
  · exact (sameExcept_jump (u.pc + 2)).trans hframe |>.mono (by simp)

end Sys2Proof.Machine
end

section
/-! O21, O22: the six skips (40_control_flow.md R93 to R96, R98; 43_display_input_timer.md R162, R163). -/

namespace Sys2Proof.Machine

/-- The key index of a register is its value modulo 16. -/
theorem lowNibble_eq_ofNat (b : Byte) : lowNibble b = BitVec.ofNat 4 (b.toNat % 16) := by
  apply BitVec.eq_of_toNat_eq
  simp [lowNibble]

/-- A skip whose condition does not look at `PC`, as a Step: the fetch's two and, where it is taken, two more. -/
theorem stepSkipsWhen_of_skipIf {i : Instr} {c : State → Prop} {b : State → Bool}
    (hexec : ∀ s, exec i s = .next (s.skipIf (b s))) (hb : ∀ s, b s.advance = true ↔ c s) : StepSkipsWhen i c := by
  rintro s ⟨hloaded, hfaulted⟩ hdecode
  rw [step_instr hloaded hfaulted hdecode, hexec]
  refine ⟨fun htaken => ?_, fun hnot => ?_⟩
  · rw [(hb s).mpr htaken]
    simp only [State.skipIf, State.advance, if_true, BitVec.add_assoc]
    rfl
  · rw [Bool.eq_false_iff.mpr (mt (hb s).mp hnot)]
    rfl

/-- Settles O21: each skip is a `State.skipIf` on a condition that the fetch's advance leaves alone. -/
theorem skipsAddTwoMore : Obligations.SkipsAddTwoMore := by
  unfold Obligations.SkipsAddTwoMore
  refine ⟨fun x nn => ?_, fun x nn => ?_, fun x y => ?_, fun x y => ?_, fun x => ?_, fun x => ?_⟩
  · exact stepSkipsWhen_of_skipIf (fun _ => rfl) fun _ => beq_iff_eq
  · exact stepSkipsWhen_of_skipIf (fun _ => rfl) fun _ => bne_iff_ne
  · exact stepSkipsWhen_of_skipIf (fun _ => rfl) fun _ => beq_iff_eq
  · exact stepSkipsWhen_of_skipIf (fun _ => rfl) fun _ => bne_iff_ne
  · exact stepSkipsWhen_of_skipIf (fun _ => rfl) fun _ => Iff.rfl
  · exact stepSkipsWhen_of_skipIf (fun _ => rfl) fun _ => Iff.of_eq (Bool.not_eq_true' _)

/-- Settles O22: each skip is a `State.skipIf` on its condition, a key's read through the register's low nibble. -/
theorem skipsComplete : Obligations.SkipsComplete := by
  unfold Obligations.SkipsComplete
  intro s x y nn
  rw [← lowNibble_eq_ofNat]
  refine ⟨?_, ?_, ?_, ?_, ?_, ?_⟩
  · exact completesSkipping_of_skipIf rfl beq_iff_eq
  · exact completesSkipping_of_skipIf rfl bne_iff_ne
  · exact completesSkipping_of_skipIf rfl beq_iff_eq
  · exact completesSkipping_of_skipIf rfl bne_iff_ne
  · exact completesSkipping_of_skipIf rfl Iff.rfl
  · exact completesSkipping_of_skipIf rfl (Iff.of_eq (Bool.not_eq_true' _))

end Sys2Proof.Machine
end

section
/-! O41: the two idle forms (40_control_flow.md R91; 43_display_input_timer.md R167; 70_reset_and_hazards.md R219). -/

namespace Sys2Proof.Machine

/-- With no key pressed, the scan finds none. -/
theorem State.firstKey_eq_none {s : State} (h : ∀ k, s.key k = false) : s.firstKey = none :=
  List.find?_eq_none.mpr fun k _ => Bool.eq_false_iff.mp (h k)

/-- Settles O41: both answer a jump from the advanced state back to the address fetched from (`State.jump_advance_self`). -/
theorem idleStepsChangeNothing : Obligations.IdleStepsChangeNothing := by
  unfold Obligations.IdleStepsChangeNothing
  rintro s ⟨hloaded, hfaulted⟩
  refine ⟨fun x hdecode hkeys => ?_, fun nnn hdecode hself => ?_⟩
  · have hnone : s.advance.firstKey = none := State.firstKey_eq_none hkeys
    rw [step_instr hloaded hfaulted hdecode, exec, execLdVxK_none x hnone, State.pcInsn_advance, State.jump_advance_self]
  · have htarget : (nnn.setWidth 16 : Word) = s.pc := BitVec.eq_of_toNat_eq ((toNat_target nnn).trans hself.symm)
    rw [step_instr hloaded hfaulted hdecode, exec, execJp, htarget, State.jump_advance_self]

end Sys2Proof.Machine
end

section
/-! O23, O24, O25, O26: loads, logic, sums and differences (41_register_alu.md R110 to R119, R121). -/

namespace Sys2Proof.Machine

/-! ## Sums and differences as arithmetic -/

theorem add_eq_ofNat (a b : Byte) : a + b = BitVec.ofNat 8 ((a.toNat + b.toNat) % 256) := by
  apply BitVec.eq_of_toNat_eq
  rw [BitVec.toNat_add, BitVec.toNat_ofNat, Nat.mod_mod]

/-- A difference with the borrowed 256 in front, so that the subtraction does not stop at zero. -/
theorem toNat_sub_eq (a b : Byte) : (a - b).toNat = (a.toNat + 256 - b.toNat) % 256 := by
  have hb := b.isLt
  rw [BitVec.toNat_sub]
  omega

theorem carryFlag_iff (a b : Byte) : carryFlag a b = true ↔ a.toNat + b.toNat > 255 := by
  rw [carryFlag, decide_eq_true_iff]

theorem noBorrowFlag_iff (a b : Byte) : noBorrowFlag a b = true ↔ a.toNat ≥ b.toNat := by
  rw [noBorrowFlag, decide_eq_true_iff]

/-! ## The instructions -/

/-- Settles O23: each is one `State.setReg`, the sum's value by `add_eq_ofNat`. -/
theorem immediateLoadAndAdd : Obligations.ImmediateLoadAndAdd := by
  unfold Obligations.ImmediateLoadAndAdd
  intro s x nn
  rw [← add_eq_ofNat]
  exact ⟨completesWriting_of_setReg rfl, completesWriting_of_setReg rfl⟩

/-- Settles O24: each is one `State.setReg`, whose value is the library's bitwise operation. -/
theorem copyAndLogic : Obligations.CopyAndLogic := by
  unfold Obligations.CopyAndLogic
  intro s x y
  refine ⟨completesWriting_of_setReg rfl, ⟨_, completesWriting_of_setReg rfl, fun _ => ?_⟩,
    ⟨_, completesWriting_of_setReg rfl, fun _ => ?_⟩, ⟨_, completesWriting_of_setReg rfl, fun _ => ?_⟩⟩
  · exact BitVec.getLsbD_or
  · exact BitVec.getLsbD_and
  · exact BitVec.getLsbD_xor

/-- Settles O25: the carry, then the sum, which is what `State.setFlagged` leaves in the destination. -/
theorem addCarriesIntoVf : Obligations.AddCarriesIntoVf := by
  unfold Obligations.AddCarriesIntoVf
  intro s x y
  exact completesFlagged_of_setFlagged rfl (BitVec.toNat_add _ _) (carryFlag_iff _ _)

/-- Settles O26: `SUBN` is `SUB` with the operands' values exchanged. -/
theorem subtractionsFlagNoBorrow : Obligations.SubtractionsFlagNoBorrow := by
  unfold Obligations.SubtractionsFlagNoBorrow
  intro s x y
  exact ⟨completesFlagged_of_setFlagged rfl (toNat_sub_eq _ _) (noBorrowFlag_iff _ _),
    completesFlagged_of_setFlagged rfl (toNat_sub_eq _ _) (noBorrowFlag_iff _ _)⟩

end Sys2Proof.Machine
end

section
/-! O28: `RND`, and a Step that is given its byte by the host (41_register_alu.md R124; 60_exceptions.md R197; log 2). -/

namespace Sys2Proof.Machine

variable {s : State}

/-! ## The draw -/

/-- Where the host gave a byte, it is the one drawn. -/
theorem State.rndDraw_of_cons {r : Byte} {rest : List Byte} (h : s.rndIn = r :: rest) : s.rndDraw = r := by
  rw [State.rndDraw, h]

theorem sameExcept_withDraws (l : List Byte) (n : Nat) : SameExcept [.draws] s (s.withDraws l n) := by
  intro q hq
  cases q <;> simp_all [Unchanged, State.withDraws, State.reg]

theorem sameExcept_drawn_setReg (x : Nibble) (b : Byte) : SameExcept [.regs, .draws] s (s.drawn.setReg x b) :=
  (sameExcept_drawn.trans (sameExcept_setReg x b)).mono (by simp)

/-! ## A Step with the host's byte -/

/-- A running core given the byte `rnd` executes with that byte next to draw. -/
theorem perform_step_instr {i : Instr} (hrun : s.Running) (hdecode : decode s.fetch = .instr i) (rnd : Byte) :
    perform (.step rnd) s = withReply .nothing (exec i (s.withDraws [rnd] s.draws).advance) := by
  obtain ⟨hloaded, hfaulted⟩ := hrun
  exact congrArg (withReply .nothing) (step_instr (s := s.withDraws [rnd] s.draws) hloaded hfaulted hdecode)

/-- Settles O28: `RND` answers the drawn state with one register written; a Step first puts the host's byte in front
(`perform_step_instr`), so that it is the byte drawn. -/
theorem rndMasksTheDraw : Obligations.RndMasksTheDraw := by
  unfold Obligations.RndMasksTheDraw
  refine ⟨fun s x nn => ?_, fun s x nn rnd hrun hdecode => ?_⟩
  · refine ⟨s.drawn.setReg x (s.rndDraw &&& nn), rfl, State.reg_setReg_self _ _ _, fun r rest hcons => ?_,
      fun r hr => State.reg_setReg_ne _ _ hr, rfl, rfl, sameExcept_drawn_setReg _ _⟩
    rw [State.reg_setReg_self, State.rndDraw_of_cons hcons]
  · refine ⟨(s.withDraws [rnd] s.draws).advance.drawn.setReg x (rnd &&& nn), perform_step_instr hrun hdecode rnd,
      State.reg_setReg_self _ _ _, fun r hr => State.reg_setReg_ne _ _ hr, rfl, ?_⟩
    have hfetch : SameExcept [.draws, .pc] s (s.withDraws [rnd] s.draws).advance :=
      (sameExcept_withDraws _ _).trans (sameExcept_jump _)
    exact (hfetch.trans (sameExcept_drawn_setReg x (rnd &&& nn))).mono (by simp)

end Sys2Proof.Machine
end

section
/-! O30, O31, O32, O33: the index register and the memory instructions (42_index_memory.md R140 to R147). -/

namespace Sys2Proof.Machine

variable {s : State}

/-! ## The index register -/

theorem toNat_word_add_byte (w : Word) (b : Byte) : (w + b.setWidth 16).toNat = (w.toNat + b.toNat) % 65536 := by
  rw [BitVec.toNat_add, BitVec.toNat_setWidth_of_le (by decide)]

theorem toNat_lowNibble (b : Byte) : (lowNibble b).toNat = b.toNat % 16 := by
  rw [lowNibble_eq_ofNat, BitVec.toNat_ofNat, Nat.mod_mod]

/-- The font starts at 0 and ends far below 2^16, so that no glyph's address is reduced. -/
theorem toNat_glyphAddress (digit : Nibble) : (glyphAddress digit).toNat = 5 * digit.toNat := by
  have hdigit := digit.isLt
  rw [glyphAddress, Config.fontBase, Config.glyphBytes, BitVec.toNat_ofNat]
  omega

theorem State.toNat_i_bumpIndex (s : State) (x : Nibble) :
    (s.bumpIndex x).i.toNat = if s.cfg.getLsbD 1 then (s.i.toNat + x.toNat + 1) % 65536 else s.i.toNat := by
  rw [State.bumpIndex_i, State.lsIncI]
  split
  · rw [BitVec.toNat_add, BitVec.toNat_ofNat, Nat.add_mod_mod, Nat.add_assoc]
  · rfl

/-- Settles O30: each writes `I` alone, and each value is an equation above or `toNat_target`. -/
theorem indexRegisterForms : Obligations.IndexRegisterForms := by
  unfold Obligations.IndexRegisterForms
  intro s x nnn
  refine ⟨⟨_, rfl, toNat_target nnn, sameExcept_index _⟩,
    ⟨_, rfl, toNat_word_add_byte s.i (s.reg x), sameExcept_index _⟩,
    ⟨_, rfl, ?_, sameExcept_index _⟩⟩
  rw [toNat_glyphAddress, toNat_lowNibble]

/-! ## The two stores -/

/-- Bytes stored at the index are read back at their addresses, as long as they do not overrun memory. -/
theorem memRead_storeAtIndex_inside (hm : Memory.wf s.mem = true) {l : List Byte} {k : Nat} (hk : k < l.length)
    (hl : l.length ≤ Config.memSize) : memRead (s.storeAtIndex l).mem (s.indexed k) = l[k] :=
  memRead_memWriteAll_inside l hm (s.indexed 0) k hk hl

@[simp] theorem length_bcdDigits (b : Byte) : (bcdDigits b).length = 3 := rfl

/-- Each digit fits in its byte: hundreds, tens, ones. -/
theorem toNat_bcdDigits (b : Byte) : (bcdDigits b)[0].toNat = b.toNat / 100
    ∧ (bcdDigits b)[1].toNat = b.toNat / 10 % 10 ∧ (bcdDigits b)[2].toNat = b.toNat % 10 := by
  have hb := b.isLt
  simp only [bcdDigits, List.getElem_cons_zero, List.getElem_cons_succ, BitVec.toNat_ofNat]
  omega

/-- Settles O31: the three digits are a store at the index, and each fits in its byte. -/
theorem bcdDigitsStored : Obligations.BcdDigitsStored := by
  unfold Obligations.BcdDigitsStored
  intro s x hm
  have digit : ∀ k (hk : k < 3), memRead (s.storeAtIndex (bcdDigits (s.reg x))).mem (s.i.toNat + k)
      = (bcdDigits (s.reg x))[k] := fun k hk => memRead_storeAtIndex_inside hm hk (by rw [length_bcdDigits]; decide)
  obtain ⟨hundreds, tens, ones⟩ := toNat_bcdDigits (s.reg x)
  exact ⟨_, rfl, (congrArg BitVec.toNat (digit 0 (by decide))).trans hundreds,
    (congrArg BitVec.toNat (digit 1 (by decide))).trans tens, (congrArg BitVec.toNat (digit 2 (by decide))).trans ones,
    fun a ha => memRead_storeAtIndex_outside hm ha, sameExcept_storeAtIndex _⟩

/-- Settles O32: `memRead_stRegs` inside the dump, `memRead_storeAtIndex_outside` outside it. -/
theorem registerDumpStores : Obligations.RegisterDumpStores := by
  unfold Obligations.RegisterDumpStores
  intro s x hm
  refine ⟨_, rfl, fun r hr => memRead_stRegs hm rfl hr, fun a ha => ?_, State.toNat_i_bumpIndex _ x,
    exec_sameExcept (i := .stRegs x) rfl⟩
  refine memRead_storeAtIndex_outside hm fun k hk => ha k ?_
  rw [State.length_regsUpTo] at hk
  exact Nat.le_of_lt_succ hk

/-! ## The load -/

/-- Settles O33: the loaded registers are `State.reg_loadRegs`, the others `reg_execLdRegs`; the load leaves `I` and
`CFG` alone, so that `I` moves as after a dump. -/
theorem registerLoadReads : Obligations.RegisterLoadReads := by
  unfold Obligations.RegisterLoadReads
  intro s x
  refine ⟨_, rfl, fun r hr => ?_, fun r hr => reg_execLdRegs rfl (Nat.not_le.mpr hr), ?_,
    exec_sameExcept (i := .ldRegs x) rfl⟩
  · rw [State.reg_bumpIndex, State.reg_loadRegs s (by omega), if_pos (by omega), State.indexed]
  · rw [State.toNat_i_bumpIndex, State.loadRegs_eq]

end Sys2Proof.Machine
end

section
/-! O38, O39, O40, O37, O42: the display, the key wait and the timers (43_display_input_timer.md R160, R161, R164 to
R168). -/

namespace Sys2Proof.Machine

variable {s t : State}

/-! ## What a sprite does to the display -/

/-- The positions that the drawing loop turns over are those of the buffer that the sprite covers with an on bit. -/
theorem spriteRowsOn_iff_spriteBitOn (x0 y0 n py px : Nat) :
    SpriteRowsOn s.mem (s.indexed 0) x0 y0 n 0 py px ↔ py < 32 ∧ px < 64 ∧ SpriteBitOn s x0 y0 n py px := by
  simp only [SpriteRowsOn, SpriteBitOn, State.indexed, Nat.add_zero]

/-- Only what the sprite reads matters: memory and the index register. -/
theorem spriteBitOn_congr (hi : t.i = s.i) (hm : ∀ a, memRead t.mem a = memRead s.mem a) (x0 y0 n py px : Nat) :
    SpriteBitOn t x0 y0 n py px ↔ SpriteBitOn s x0 y0 n py px := by
  rw [SpriteBitOn, SpriteBitOn, hi, hm]

theorem pixelAt_sprite (x y n : Nibble) {py px : Nat} (hpy : py < 32) (hpx : px < 64) :
    (pixelAt (s.sprite x y n).1 py px = true ↔ (pixelAt s.disp py px = true ↔
      ¬ SpriteBitOn s ((s.reg x).toNat % 64) ((s.reg y).toNat % 32) n.toNat py px)) := by
  rw [State.sprite, pixelAt_drawRows, spriteRowsOn_iff_spriteBitOn]
  simp only [hpy, hpx, true_and]

theorem collides_sprite (x y n : Nibble) :
    ((s.sprite x y n).2 = true ↔ ∃ py px, py < 32 ∧ px < 64
      ∧ SpriteBitOn s ((s.reg x).toNat % 64) ((s.reg y).toNat % 32) n.toNat py px ∧ pixelAt s.disp py px = true) := by
  rw [State.sprite, collides_drawRows]
  simp only [spriteRowsOn_iff_spriteBitOn, Bool.false_eq_true, false_or, and_assoc]

/-! ## `DRW` -/

/-- `VF` ends with the collision, for it is written last. -/
theorem reg_vf_of_exec_drw {x y n : Nibble} (h : exec (.drw x y n) s = .next t) :
    t.reg vf = flagByte (s.sprite x y n).2 := by
  cases h
  exact State.reg_setReg_self _ _ _

theorem flagByte_eq_one_iff (c : Bool) : flagByte c = 1 ↔ c = true := by cases c <;> decide

theorem reg_vf_eq_one_iff_of_exec_drw {x y n : Nibble} (h : exec (.drw x y n) s = .next t) :
    t.reg vf = 1 ↔ ∃ py px, py < 32 ∧ px < 64
      ∧ SpriteBitOn s ((s.reg x).toNat % 64) ((s.reg y).toNat % 32) n.toNat py px ∧ pixelAt s.disp py px = true := by
  rw [reg_vf_of_exec_drw h, flagByte_eq_one_iff, collides_sprite]

/-- Settles O38: `pixelAt_sprite` for the display, `collides_sprite` for `VF`. -/
theorem drawTurnsSpriteBitsOver : Obligations.DrawTurnsSpriteBitsOver := by
  unfold Obligations.DrawTurnsSpriteBitsOver
  rintro s x y n _ _ rfl rfl
  refine ⟨_, rfl, fun py px hpy hpx => pixelAt_sprite x y n hpy hpx,
    (reg_vf_eq_one_iff_of_exec_drw rfl).mpr, fun hmissed => ?_,
    fun r hr => reg_exec (i := .drw x y n) rfl hr, (exec_sameExcept (i := .drw x y n) rfl).mono (by simp [touches])⟩
  rw [reg_vf_of_exec_drw rfl, Bool.eq_false_iff.mpr (mt (collides_sprite x y n).mp hmissed)]
  rfl

/-- Settles O39: the second drawing finds the same sprite at the same origin (`spriteBitOn_congr`), so that
`drawTurnsSpriteBitsOver` turns each of its pixels over once more, and an on bit meets an on pixel where it met an off
one before. -/
theorem drawTwiceRestoresDisplay : Obligations.DrawTwiceRestoresDisplay := by
  unfold Obligations.DrawTwiceRestoresDisplay
  intro s x y n hx hy
  obtain ⟨t, ht, hfirst, -, -, hregs, hframe⟩ := drawTurnsSpriteBitsOver s x y n _ _ rfl rfl
  obtain ⟨u, hu, hsecond, -⟩ := drawTurnsSpriteBitsOver t x y n _ _ rfl rfl
  have hsprite := spriteBitOn_congr (hframe .index (by decide)) (hframe .mem (by decide))
  simp only [hregs x hx, hregs y hy, hsprite] at hsecond
  refine ⟨t, u, ht, hu, display_ext fun py px hpy hpx => ?_, ?_⟩
  · rw [Bool.eq_iff_iff, hsecond py px hpy hpx, hfirst py px hpy hpx]
    tauto
  · simp only [reg_vf_eq_one_iff_of_exec_drw hu, hregs x hx, hregs y hy, hsprite]
    refine exists_congr fun py => exists_congr fun px => and_congr_right fun hpy => and_congr_right fun hpx =>
      and_congr_right fun hon => ?_
    rw [hfirst py px hpy hpx, ← Bool.not_eq_true]
    tauto

/-! ## `LD Vx, K` -/

/-- The scan visits the keys in the order of their indices. -/
theorem toNat_getElem_scanOrder : ∀ j (hj : j < scanOrder.length), scanOrder[j].toNat = j := by decide

/-- The scan finds a pressed key below which none is pressed. -/
theorem State.firstKey_eq_some {k : Nibble} (hk : s.key k = true)
    (hlow : ∀ j : Nibble, j.toNat < k.toNat → s.key j = false) : s.firstKey = some k := by
  have hlen : k.toNat < scanOrder.length := k.isLt
  refine List.find?_eq_some_iff_getElem.mpr
    ⟨hk, k.toNat, hlen, BitVec.eq_of_toNat_eq (toNat_getElem_scanOrder _ hlen), fun j hj => ?_⟩
  rw [hlow _ (by rwa [toNat_getElem_scanOrder])]
  rfl

/-- Settles O40: the scan finds the key (`State.firstKey_eq_some`), or none and the answer is a jump back. -/
theorem keyWaitTakesLowestKey : Obligations.KeyWaitTakesLowestKey := by
  unfold Obligations.KeyWaitTakesLowestKey
  intro s x
  refine ⟨fun k hk hlow => ?_, fun hkeys => ?_⟩
  · rw [BitVec.ofNat_toNat]
    exact completesWriting_of_setReg (execLdVxK_some x (State.firstKey_eq_some hk hlow))
  · exact ⟨_, execLdVxK_none x (State.firstKey_eq_none hkeys), rfl, sameExcept_jump _⟩

/-! ## `CLS` and the timers -/

/-- Settles O37: the buffer is replaced by `clearDisplay`. -/
theorem clearTurnsEveryPixelOff : Obligations.ClearTurnsEveryPixelOff := by
  unfold Obligations.ClearTurnsEveryPixelOff
  intro s
  exact ⟨_, rfl, fun y x _ _ => pixelAt_clearDisplay y x, sameExcept_disp _⟩

/-- Settles O42: each is one write, of a register or of a timer. -/
theorem timerInstructionsMoveBytes : Obligations.TimerInstructionsMoveBytes := by
  unfold Obligations.TimerInstructionsMoveBytes
  intro s x
  exact ⟨completesWriting_of_setReg rfl, ⟨_, rfl, rfl, sameExcept_delay _⟩, ⟨_, rfl, rfl, sameExcept_sound _⟩⟩

end Sys2Proof.Machine
end

section
/-! O17, O19, O44, O45, O46, O51: the two stack faults and what the host may do (60_exceptions.md R180, R181, R183, R190
to R197; 70_reset_and_hazards.md R217, R218). -/

namespace Sys2Proof.Machine

variable {s t : State}

/-! ## The stack faults -/

/-- An instruction that answers fault entry has `STATUS` read as the cause's code, and leaves all but `PC` and `STATUS`
alone (60_exceptions.md R183). -/
theorem next_raise_fields {i : Instr} {c : Cause} (h : exec i s = .next (s.raise c)) :
    ∃ t, exec i s = .next t ∧ t.pc = s.pc - 2
      ∧ t.status.getLsbD 0 = true ∧ t.status.extractLsb' 1 2 = c.code ∧ t.status.getLsbD 3 = s.status.getLsbD 3
      ∧ SameExcept [.pc, .status] s t :=
  ⟨s.raise c, h, rfl, State.faulted_raise c, State.cause_raise c, State.isLoaded_raise c, sameExcept_raise c⟩

/-- Settles O17: `execCall_full` is fault entry. -/
theorem callOnFullStackFaults : Obligations.CallOnFullStackFaults := by
  unfold Obligations.CallOnFullStackFaults
  intro nnn s hfull
  exact next_raise_fields (i := .call nnn) (c := .stackOverflow) (execCall_full nnn (Fin.ext hfull))

/-- Settles O19: `execRet_empty` is fault entry. -/
theorem returnOnEmptyStackFaults : Obligations.ReturnOnEmptyStackFaults := by
  unfold Obligations.ReturnOnEmptyStackFaults
  intro s hempty
  exact next_raise_fields (i := .ret) (c := .stackUnderflow) (execRet_empty (Fin.ext hempty))

/-! ## `Tick`, the keys, `CFG` and the outputs -/

theorem sameExcept_tick : SameExcept [.delay, .sound] s s.tick :=
  (sameExcept_delay (countDown s.dt)).trans (sameExcept_sound (countDown s.st))

theorem sameExcept_setKey (k : Nibble) (b : Bool) : SameExcept [.keys] s (s.setKey k b) := by
  intro q hq
  cases q <;> simp_all [Unchanged, State.reg]

theorem sameExcept_setConfig (c : BitVec 2) : SameExcept [.cfg] s (s.setConfig c) := by
  intro q hq
  cases q <;> simp_all [Unchanged, State.reg]

/-- The key written is the key read. -/
@[simp] theorem State.key_setKey_self (k : Nibble) (b : Bool) : (s.setKey k b).key k = b :=
  Vector.getElem_set_self k.isLt

/-- A write leaves every other key alone. -/
@[simp] theorem State.key_setKey_ne {k j : Nibble} (b : Bool) (h : j ≠ k) : (s.setKey k b).key j = s.key j :=
  Vector.getElem_set_ne k.isLt j.isLt fun e => h (BitVec.eq_of_toNat_eq e.symm)

/-- `ST != 0` as its value (60_exceptions.md R192). -/
theorem State.sound_eq_toNat_ne (s : State) : s.sound = decide (s.st.toNat ≠ 0) :=
  decide_eq_decide.mpr (not_congr BitVec.toNat_inj.symm)

theorem perform_tick_loaded (hl : s.isLoaded = true) : perform .tick s = .next (s.tick, .sound s.tick.sound) := if_pos hl

theorem perform_tick_notLoaded (hl : s.isLoaded = false) : perform .tick s = .refused .notLoaded :=
  if_neg (Bool.eq_false_iff.mp hl)

/-- Settles O44: each timer is a `countDown` (`toNat_countDown`), and `ST != 0` is `0 < ST`. -/
theorem tickCountsDownToZero : Obligations.TickCountsDownToZero := by
  unfold Obligations.TickCountsDownToZero
  intro s hl
  refine ⟨s.tick, ?_, toNat_countDown s.dt, toNat_countDown s.st, sameExcept_tick⟩
  rw [perform_tick_loaded hl, State.sound_eq_toNat_ne]
  simp only [Nat.pos_iff_ne_zero]

/-- Settles O45: one `Vector.set` of the keys. -/
theorem setKeyWritesOneKey : Obligations.SetKeyWritesOneKey := by
  unfold Obligations.SetKeyWritesOneKey
  intro s k b
  exact ⟨s.setKey k b, rfl, State.key_setKey_self k b, fun _ hj => State.key_setKey_ne b hj, sameExcept_setKey k b⟩

/-- Settles O46: a write of `CFG` alone, and three reads that hand the state back. -/
theorem configWriteAndOutputReads : Obligations.ConfigWriteAndOutputReads := by
  unfold Obligations.ConfigWriteAndOutputReads
  intro s
  refine ⟨fun c => ⟨s.setConfig c, rfl, rfl, sameExcept_setConfig c⟩, rfl, ?_, rfl⟩
  rw [← State.sound_eq_toNat_ne]
  rfl

/-- Settles O51: Step and Tick look at `LOADED` first, and the byte drawn for a Step is no part of it. -/
theorem beforeLoadNothingRuns : Obligations.BeforeLoadNothingRuns := by
  unfold Obligations.BeforeLoadNothingRuns
  intro s hl
  refine ⟨step_notLoaded hl, fun rnd => ?_, perform_tick_notLoaded hl⟩
  rw [perform, stepWith, step_notLoaded (s := { s with rndIn := [rnd] }) hl]
  rfl

end Sys2Proof.Machine
end

section
/-! O10, O14: a faulted core, and the instruction its `PC` names (60_exceptions.md R180 to R183, R187). -/

namespace Sys2Proof.Machine

variable {s t : State}

/-- Everything an operation that is answered can have done to `PC`, memory and `STATUS`: what a Step does, what a Load
that fits does, or nothing. -/
theorem perform_cases {o : HostOp} {r : Reply} (h : perform o s = .next (t, r)) :
    (∃ rnd, o = .step rnd ∧ step { s with rndIn := [rnd] } = .next t)
      ∨ (∃ image, o = .load image ∧ image.length ≤ 3584 ∧ t = s.loadedWith font image)
      ∨ ((∀ image, o = .load image → 3584 < image.length) ∧ t.pc = s.pc ∧ t.mem = s.mem ∧ t.status = s.status) := by
  cases o with
  | step rnd => exact .inl ⟨rnd, rfl, step_of_perform_step h⟩
  | load image =>
    obtain ⟨hfits, hload⟩ | ⟨hlarge, hload⟩ := load_cases (s := s) image <;> simp only [perform, hload] at h <;> cases h
    · exact .inr (.inl ⟨image, rfl, hfits, rfl⟩)
    · exact .inr (.inr ⟨fun _ e => HostOp.load.inj e ▸ hlarge, rfl, rfl, rfl⟩)
  | tick =>
    obtain ⟨-, rfl⟩ := tick_of_perform_tick h
    exact .inr (.inr ⟨nofun, rfl, rfl, rfl⟩)
  | setKey | setConfig | readDisp | readSound | readStatus =>
    cases h
    exact .inr (.inr ⟨nofun, rfl, rfl, rfl⟩)

/-! ## A faulted core stays halted -/

theorem faulted_loadedWith (s : State) (fontTable image : List Byte) : (s.loadedWith fontTable image).faulted = false :=
  (status_fields true 0 false).1

/-- Of a faulted core's operations only a Load that fits clears `FAULT` (60_exceptions.md R182, R187). -/
theorem faulted_eq_false_iff_of_perform {o : HostOp} {r : Reply} (hl : s.isLoaded = true) (hf : s.faulted = true)
    (h : perform o s = .next (t, r)) : t.faulted = false ↔ ∃ image, o = .load image ∧ image.length ≤ 3584 := by
  obtain ⟨rnd, rfl, hstep⟩ | ⟨image, rfl, hfits, rfl⟩ | ⟨hlarge, -, -, hstatus⟩ := perform_cases h
  · have hhalt : t.faulted = true := by
      rw [step_faulted (s := { s with rndIn := [rnd] }) hl hf] at hstep
      cases hstep
      exact hf
    simp [hhalt]
  · exact iff_of_true (faulted_loadedWith s font image) ⟨image, rfl, hfits⟩
  · have hkept : t.faulted = true := (State.status_congr hstatus).1.trans hf
    refine iff_of_false (by simp [hkept]) ?_
    rintro ⟨image, rfl, hfits⟩
    exact Nat.not_lt.mpr hfits (hlarge image rfl)

/-- Settles O10: `step_faulted`, the operations that do not look at `FAULT`, and `faulted_eq_false_iff_of_perform`. -/
theorem faultedCoreStaysHalted : Obligations.FaultedCoreStaysHalted := by
  unfold Obligations.FaultedCoreStaysHalted
  intro s hl hf
  have htick := perform_tick_loaded hl
  exact ⟨step_faulted hl hf, ⟨_, _, htick, timers_of_perform_tick htick⟩,
    fun k b => ⟨_, _, rfl, State.key_setKey_self k b⟩, ⟨rfl, rfl, rfl⟩,
    fun _ _ _ h => faulted_eq_false_iff_of_perform hl hf h⟩

/-! ## The instruction that faulted -/

theorem faultNamesInstruction_of_notFaulted (h : s.faulted = false) : FaultNamesInstruction s :=
  fun hf => absurd hf (by simp [h])

/-- The opcode at `PC` depends on `PC` and memory only. -/
theorem State.fetch_congr (hpc : t.pc = s.pc) (hm : t.mem = s.mem) : t.fetch = s.fetch := by
  simp only [State.fetch, hpc, hm]

/-- The property speaks of `PC`, memory and `STATUS` only. -/
theorem FaultNamesInstruction.congr (h : FaultNamesInstruction s) (hpc : t.pc = s.pc) (hm : t.mem = s.mem)
    (hst : t.status = s.status) : FaultNamesInstruction t := by
  obtain ⟨hf, hc, -⟩ := State.status_congr hst
  simpa only [FaultNamesInstruction, hf, hc, State.fetch_congr hpc hm] using h

/-- Fault entry puts `PC` back where the instruction was fetched, and memory is as it was (60_exceptions.md R183). -/
theorem State.fetch_raise_advance (s : State) (c : Cause) : (s.advance.raise c).fetch = s.fetch :=
  State.fetch_congr State.pcInsn_advance rfl

/-- Taking the overflow where the opcode fetched is a `CALL`. -/
theorem faultNamesInstruction_stackOverflow {nnn : Imm12} (h : decode s.fetch = .instr (.call nnn)) :
    FaultNamesInstruction (s.advance.raise .stackOverflow) := by
  intro _
  rw [State.fetch_raise_advance, State.cause_raise]
  exact ⟨fun _ => ⟨nnn, h⟩, fun hcause => absurd hcause (by decide)⟩

/-- Taking the underflow where the opcode fetched is a `RET`. -/
theorem faultNamesInstruction_stackUnderflow (h : decode s.fetch = .instr .ret) :
    FaultNamesInstruction (s.advance.raise .stackUnderflow) := by
  intro _
  rw [State.fetch_raise_advance, State.cause_raise]
  exact ⟨fun hcause => absurd hcause (by decide), fun _ => h⟩

/-- A step of a halted core changes nothing; a step of a running one leaves it running, or is the `CALL` or `RET` that
takes its stack fault. -/
theorem faultNamesInstruction_step (hs : FaultNamesInstruction s) (h : step s = .next t) : FaultNamesInstruction t := by
  obtain ⟨-, ⟨-, rfl⟩ | ⟨hf, i, hdecode, hexec⟩ | ⟨hf, r, -, rfl⟩⟩ := step_cases h
  · exact hs
  · rcases exec_status_cases hexec with hstatus | ⟨nnn, rfl, -, rfl⟩ | ⟨rfl, -, rfl⟩
    · exact faultNamesInstruction_of_notFaulted ((State.status_congr hstatus).1.trans hf)
    · exact faultNamesInstruction_stackOverflow hdecode
    · exact faultNamesInstruction_stackUnderflow hdecode
  · exact faultNamesInstruction_of_notFaulted hf

theorem faultNamesInstruction_perform {o : HostOp} {r : Reply} (hs : FaultNamesInstruction s)
    (h : perform o s = .next (t, r)) : FaultNamesInstruction t := by
  obtain ⟨rnd, -, hstep⟩ | ⟨image, -, -, rfl⟩ | ⟨-, hpc, hm, hst⟩ := perform_cases h
  · have hdraw : FaultNamesInstruction { s with rndIn := [rnd] } := hs.congr rfl rfl rfl
    exact faultNamesInstruction_step hdraw hstep
  · exact faultNamesInstruction_of_notFaulted (faulted_loadedWith s font image)
  · exact hs.congr hpc hm hst

/-- Settles O14: kept by every step and every operation, and the reset state has no fault. -/
theorem faultAddressNamesCallOrRet : Obligations.FaultAddressNamesCallOrRet := by
  unfold Obligations.FaultAddressNamesCallOrRet
  exact ⟨fun _ _ => faultNamesInstruction_step, fun _ _ _ _ => faultNamesInstruction_perform,
    faultNamesInstruction_of_notFaulted (by decide)⟩

end Sys2Proof.Machine
end

section
/-! O48 to O50: what Load answers to an image that does not fit, and what of the state before it the loaded state still
shows (70_reset_and_hazards.md R210 to R214, R217). -/

namespace Sys2Proof.Machine

variable {s t u : State} {image : List Byte}

/-! ## Load by the size of the image -/

theorem load_of_fits (s : State) (h : image.length ≤ 3584) : load image s = .ok (s.loadedWith font image) :=
  loadWith_of_fits font s h

theorem load_of_large (s : State) (h : 3584 < image.length) : load image s = .error .tooLarge :=
  if_pos h

theorem load_eq_ok_iff : load image s = .ok t ↔ image.length ≤ 3584 ∧ s.loadedWith font image = t := by
  obtain ⟨hfits, hload⟩ | ⟨hlarge, hload⟩ := load_cases (s := s) image
  · simp [hload, hfits]
  · simp [hload, hlarge]

/-- Settles O48: the size check comes before every effect. -/
theorem loadTooLargeChangesNothing : Obligations.LoadTooLargeChangesNothing := by
  unfold Obligations.LoadTooLargeChangesNothing
  intro image s hlarge
  rw [perform, load_of_large s hlarge]

/-! ## The loaded state and the state before -/

/-- Beside the model's own draws, of the state before only `CFG` is seen in what a Load leaves. -/
theorem loadedWith_eq_of_cfg (fontTable image : List Byte) (h : u.cfg = s.cfg) :
    u.loadedWith fontTable image = { s.loadedWith fontTable image with rndIn := u.rndIn, draws := u.draws } := by
  simp only [State.loadedWith, h]

theorem load_congr (image : List Byte) (hcfg : s.cfg = t.cfg) (hrnd : s.rndIn = t.rndIn) (hdraws : s.draws = t.draws) :
    load image s = load image t := by
  have hstate : s.loadedWith font image = t.loadedWith font image := by
    rw [loadedWith_eq_of_cfg font image hcfg, hrnd, hdraws]
    rfl
  obtain hlarge | hfits := Nat.lt_or_ge 3584 image.length
  · rw [load_of_large s hlarge, load_of_large t hlarge]
  · rw [load_of_fits s hfits, load_of_fits t hfits, hstate]

/-- A second Load of an image, from any state with the `CFG` the first one left, leaves what the first one did. -/
theorem load_again (h : load image s = .ok t) (hcfg : u.cfg = t.cfg) :
    load image u = .ok { t with rndIn := u.rndIn, draws := u.draws } := by
  obtain ⟨hfits, rfl⟩ := load_eq_ok_iff.mp h
  have hcfg : u.cfg = s.cfg := hcfg
  rw [load_of_fits u hfits, loadedWith_eq_of_cfg font image hcfg]

/-- Settles O49: `load_congr` for two pasts, `load_again` for a repeated Load. -/
theorem loadForgetsThePast : Obligations.LoadForgetsThePast := by
  unfold Obligations.LoadForgetsThePast
  exact ⟨fun image _ _ => load_congr image, fun _ _ _ _ => load_again⟩

/-! ## The reset state -/

/-- A canonical memory that reads as the reset contents lists no cell. -/
theorem eq_nil_of_memRead_eq_background {m : Memory} (hm : Memory.wf m = true)
    (h : ∀ a < 4096, memRead m a = background a) : m = [] := by
  cases m with
  | nil => rfl
  | cons p rest =>
    obtain ⟨b, w⟩ := p
    simp only [Memory.wf, wfFrom, Bool.and_eq_true, decide_eq_true_eq] at hm
    obtain ⟨⟨⟨-, hb⟩, hw⟩, -⟩ := hm
    have hread := h b hb
    rw [memRead, effective, Nat.mod_eq_of_lt hb, cellAt, if_pos rfl] at hread
    exact absurd hread hw

/-- The default font and no image are the reset contents (20_memory.md R51). -/
theorem loadedMemory_font_nil : loadedMemory font [] = [] := by
  refine eq_nil_of_memRead_eq_background (wf_loadedMemory font []) fun a ha => ?_
  rw [memRead_loadedMemory rfl (Nat.zero_le _) ha, background]
  split
  · rfl
  · next hpast =>
    have hfont : font.length ≤ a := Nat.not_lt.mp hpast
    rw [List.getD_eq_default font 0 hfont, List.getD_nil, ite_self]

theorem loadedWith_font_nil (h : s.cfg = 0) :
    s.loadedWith font [] = { State.reset with rndIn := s.rndIn, draws := s.draws } := by
  rw [State.loadedWith, loadedMemory_font_nil, h]
  rfl

/-- Settles O50: the empty image fits, and with `CFG` 0 it leaves `loadedWith_font_nil`. -/
theorem resetIsEmptyLoadFromPowerOn : Obligations.ResetIsEmptyLoadFromPowerOn := by
  unfold Obligations.ResetIsEmptyLoadFromPowerOn
  intro s hpower
  obtain ⟨-, hcfg⟩ := hpower
  rw [load_of_fits s (Nat.zero_le _), loadedWith_font_nil hcfg]

end Sys2Proof.Machine
end
